-- ==== Sys2Proof/Word.lean ====
section
/-! DEFINITION. The word and byte types, and the register files of eight words.

R7: every value is unsigned; a word is 32 bits, a byte 8. The arithmetic on words is the word
arithmetic unit of 40_word_alu.md and stands in Machine/WordAlu.lean. -/

namespace Sys2Proof

/-- A 32-bit word (R7, `WORD_W` of R6). -/
abbrev Word := BitVec 32

/-- A byte (R7). -/
abbrev Byte := BitVec 8

/-- A file of eight 32-bit registers, words 0 to 7 (R31, R32, R34; `N_WORDS` of R6). -/
@[ext]
structure Words8 where
  w0 : Word
  w1 : Word
  w2 : Word
  w3 : Word
  w4 : Word
  w5 : Word
  w6 : Word
  w7 : Word
  deriving DecidableEq, Repr

/-- Register `i` of a file: `X[i]` of R10. Indices are `Fin 8`, so `i + k` and `i - k` are the
`mod 8` of R9. -/
def Words8.get (v : Words8) (i : Fin 8) : Word :=
  match i.val with
  | 0 => v.w0
  | 1 => v.w1
  | 2 => v.w2
  | 3 => v.w3
  | 4 => v.w4
  | 5 => v.w5
  | 6 => v.w6
  | _ => v.w7

/-- The file whose register `i` holds `f i`: a *simultaneous* block of R10, every right-hand side
evaluated before any assignment. -/
def Words8.ofFn (f : Fin 8 → Word) : Words8 :=
  ⟨f 0, f 1, f 2, f 3, f 4, f 5, f 6, f 7⟩

/-- The file whose eight registers all hold `w`. -/
def Words8.fill (w : Word) : Words8 := ⟨w, w, w, w, w, w, w, w⟩

/-- The registers in index order. -/
def Words8.toList (v : Words8) : List Word := [v.w0, v.w1, v.w2, v.w3, v.w4, v.w5, v.w6, v.w7]

/-- Four words: the key words `K[0..3]`, the IV words `D[0..3]` and the output words `o[0..3]`,
values that live inside one command only (R44). -/
structure Words4 where
  w0 : Word
  w1 : Word
  w2 : Word
  w3 : Word
  deriving DecidableEq, Repr

/-- Word `i` of four, `i` taken `mod 4` as in R153. -/
def Words4.get (v : Words4) (i : Nat) : Word :=
  match i % 4 with
  | 0 => v.w0
  | 1 => v.w1
  | 2 => v.w2
  | _ => v.w3

end Sys2Proof
end

