-- ==== Sys2Proof/Config.lean ====
section
/-! DEFINITION. The parameters of 00_scope.md R6: the ones the source fixes, as constants, and the
open and configurable ones, as the record `Params` that a machine carries unchanged.

The counter constants `RABBIT_A` of R6 and R170 stand beside the round that reads them, in
Machine/NextState.lean. -/

namespace Sys2Proof

/-- `KEY_BYTES` of R6. -/
abbrev keyBytes : Nat := 16

/-- `IV_BYTES` of R6. -/
abbrev ivBytes : Nat := 8

/-- `BLOCK_BYTES` of R6: keystream bytes per round. -/
abbrev blockBytes : Nat := 16

/-- `PEND_MAX` of R6. -/
abbrev pendMax : Nat := 15

/-- `WARMUP_ROUNDS` of R6. -/
abbrev warmupRounds : Nat := 4

/-- `2^LEN_W` of R6 and R61: the length field counts from 0 to one less than this. -/
abbrev lenBound : Nat := 2 ^ 24

/-- The parameters the spec leaves to a platform. They are arguments of the model (R6): a state
carries them, no step changes them, and a statement about every state holds for every value.
The third open parameter, `N_ENGINES`, is the length of the state's list of engines. -/
structure Params where
  /-- `P_REWIND_CLEARS_PENDING` (R222, 92 D12): whether REWIND empties PEND. -/
  rewindClearsPending : Bool
  /-- `ENGINE_BASE` (R69, 92 D18): where the platform places an engine. No rule depends on it. -/
  engineBase : Nat
  deriving DecidableEq, Repr

/-- The spec's default parameters: `P_REWIND_CLEARS_PENDING = false` (R6). The base address is a
DESIGN CHOICE (assumption 6): the spec gives none and nothing reads it. -/
def Params.default : Params := { rewindClearsPending := false, engineBase := 0 }

end Sys2Proof
end

