-- ==== Sys2Proof/Syntax.lean ====
section
/-! DEFINITION. The five commands of opcode_table.json: the whole instruction set. -/

namespace Sys2Proof

/-- One command, as the decoder reads it from the command word (R82, R87). The length is the number
of operand bytes, taken as an unsigned integer (R83). The operand bytes themselves are not part of the
command word: they are the buffer the host hands over with it (R80). -/
inductive Instr where
  /-- KEYSETUP (R137), with its LEN field. -/
  | keysetup (len : Nat)
  /-- IVSETUP (R155), with its LEN field. -/
  | ivsetup (len : Nat)
  /-- PROCESS (R195), with its LEN field. -/
  | process (len : Nat)
  /-- REWIND (R221), whose LEN field is 0. -/
  | rewind
  /-- PURGE (R225), whose LEN field is 0. -/
  | purge
  deriving DecidableEq, Repr

/-- The LEN field of a command: the number of operand bytes that belong to it (R82, R86). -/
def Instr.len : Instr → Nat
  | .keysetup n => n
  | .ivsetup n => n
  | .process n => n
  | .rewind => 0
  | .purge => 0

end Sys2Proof
end

