-- ==== Sys2Proof/WellFormed.lean ====
section
/-! DEFINITION. Which commands can be written as a command word. -/

namespace Sys2Proof

/-- A command is well formed when its length fits the 24-bit LEN field (R61, R81). Every such length
is an encodable command, the lengths that end in a size error included (R82). -/
abbrev Instr.WellFormed (i : Instr) : Prop := i.len < lenBound

end Sys2Proof
end

