-- ==== Sys2Proof/Decode.lean ====
section
/-! DEFINITION. The decoder of 30_encoding.md R87, total on every command word, and the encoder of
R89 (`LEN << 8 | OP`). -/

namespace Sys2Proof

/-- Why a command word is no command. Each is `Fault(IllegalCommand)` at the machine (R248). -/
inductive DecodeError where
  /-- RSV is not 0000 (R84). -/
  | reservedField
  /-- OP is 0000 or 0110 to 1111 (R85). -/
  | reservedOp
  /-- REWIND or PURGE with a LEN other than 0 (R86). -/
  | nonzeroLength
  deriving DecidableEq, Repr

/-- The field OP, bits [3:0] (R81). -/
def opField (w : Word) : BitVec 4 := w.extractLsb' 0 4

/-- The field RSV, bits [7:4] (R81). -/
def rsvField (w : Word) : BitVec 4 := w.extractLsb' 4 4

/-- The field LEN, bits [31:8], zero-extended to an integer (R81, R83). -/
def lenField (w : Word) : Nat := (w.extractLsb' 8 24).toNat

/-- `decode(CMD)` of R87: RSV first, then OP, then the length of REWIND and PURGE, in the order R250
gives its points 4 and 5. -/
def decode (w : Word) : Except DecodeError Instr :=
  if rsvField w ≠ 0 then .error .reservedField
  else
    match (opField w).toNat with
    | 1 => .ok (.keysetup (lenField w))
    | 2 => .ok (.ivsetup (lenField w))
    | 3 => .ok (.process (lenField w))
    | 4 => if lenField w ≠ 0 then .error .nonzeroLength else .ok .rewind
    | 5 => if lenField w ≠ 0 then .error .nonzeroLength else .ok .purge
    | _ => .error .reservedOp

/-- The operation code of a command (R82). -/
def Instr.op : Instr → BitVec 4
  | .keysetup _ => 1
  | .ivsetup _ => 2
  | .process _ => 3
  | .rewind => 4
  | .purge => 5

/-- The command word of a well-formed command, `LEN << 8 | OP` with RSV = 0 (R81, R89). -/
def encode (i : Instr) : Word := BitVec.ofNat 24 i.len ++ (0#4 ++ i.op)

/-- The instruction the decoder reads from the bits `w` of a row of opcode_table.json. A command is one
32-bit word (R88), which the host writes whole into CMD: there is no byte order to lay out. -/
def decodeTableWord (nbits w : Nat) : Option Instr :=
  if nbits ≤ 32 ∧ w < 2 ^ 32 then
    match decode (BitVec.ofNat 32 w) with
    | .ok i => some i
    | .error _ => none
  else none

end Sys2Proof
end

