-- ==== Sys2Proof/Machine/State.lean ====
section
/-! DEFINITION. Everything the machine holds: the engines (10_state.md R47), the command the host has
issued with its operand buffer (R43, R60), and the host's own actions still to come (R30), all plain
data. -/

namespace Sys2Proof.Machine

/-- Why the spec sets an engine's FAULT flag (R245). A raised fault is a next state, the one R246
describes; the reason is what the command reports, and STATUS shows only the flag. -/
inductive FaultReason where
  /-- Any command while FAULT = 1. -/
  | faulted
  /-- RSV not 0, a reserved OP, or REWIND or PURGE with a length (R248). -/
  | illegalCommand
  /-- IVSETUP, PROCESS or REWIND while KEYED = 0 (R247). -/
  | notKeyed
  /-- A command issued while another to the same engine is in progress, or a buffer touched by the
  host or shared by two engines during its command (R71, R72, R249). -/
  | concurrentUse
  deriving DecidableEq, Repr

/-- The two errors of R241 and R243; R244: no other exists. -/
inductive ErrorKind where
  | invalidKeySize
  | invalidIVSize
  deriving DecidableEq, Repr

/-- How the last command to finish ended, of the four ways of R240. The fourth, *refused*, is no state
of the machine but the refusal of the step. The model's own record of what the host is told
(assumption 4). -/
inductive CommandEnd where
  | completed
  | error (k : ErrorKind)
  | fault (r : FaultReason)
  deriving DecidableEq, Repr

/-- What the host does while a command is in progress: nothing, as R277 and R278 ask of it, or one of
the three things R71, R72 and R249 name as concurrent use (assumption 5). -/
inductive Conduct where
  /-- One command at a time, buffer left alone. -/
  | exclusive
  /-- The command is issued while another command to the same engine is in progress (R71). -/
  | overlapping
  /-- The host reads or writes the buffer during the command (R71, R278). -/
  | touchesBuffer
  /-- Another engine is given the same buffer at the same time (R72). -/
  | sharesBuffer
  deriving DecidableEq, Repr

/-- The operand buffer BUF (R60), the hardware's only address space: byte indices 0 to `len - 1`.
`cells` lists the bytes that are not 00 by rising index; an index below `len` that is not listed
holds 00, and an index from `len` on does not exist. The zero is only the way a buffer is
written down: every byte of a buffer is one the host supplied (assumption 3). -/
@[ext]
structure Buffer where
  len   : Nat
  cells : List Host.Cell
  deriving DecidableEq, Repr

/-- The canonical form of a buffer: indices strictly rising, all inside, no 00 listed. Equal buffers
are then equal data. -/
abbrev Buffer.Wf (m : Buffer) : Prop :=
  m.cells.Pairwise (fun p q => p.1 < q.1) ∧ ∀ p ∈ m.cells, p.1 < m.len ∧ p.2 ≠ 0#8

/-- The buffer of no bytes. -/
def Buffer.empty : Buffer := { len := 0, cells := [] }

/-- One command as the host issues it (R80): the engine it goes to (R258), the word for CMD, the
operand buffer, and how the host behaves while it runs (assumptions 2 and 5). -/
structure Transaction where
  engine  : Nat
  cmd     : Word
  buf     : Buffer
  conduct : Conduct
  deriving DecidableEq, Repr

/-- What the world outside the engines can do: issue a command (R30, R80), or power the hardware on
anew (R270, assumption 8). -/
inductive HostEvent where
  | issue (t : Transaction)
  | powerOn
  deriving DecidableEq, Repr

/-- One engine: exactly the record of R47. STATUS is a function of it (R42) and PEND_LEN and
PEND_BUF[0..PEND_LEN-1] are the length and the bytes of `pend` (R36, assumption 10). -/
@[ext]
structure Engine where
  /-- X[0..7], the nonlinear state (R31). -/
  x      : Words8
  /-- C[0..7], the counter state (R32). -/
  c      : Words8
  /-- CARRY (R33). -/
  carry  : Bool
  /-- MX[0..7] of the master snapshot (R34). -/
  mx     : Words8
  /-- MC[0..7] of the master snapshot (R34). -/
  mc     : Words8
  /-- MCARRY of the master snapshot (R34). -/
  mcarry : Bool
  /-- PEND, the pending keystream bytes, next byte first (R36). -/
  pend   : List Byte
  /-- KEYED (R39). -/
  keyed  : Bool
  /-- FAULT (R41). -/
  fault  : Bool
  /-- STATUS.ERR (R42). -/
  err    : BitVec 2
  deriving DecidableEq, Repr

/-- The power-on values of R46. X, C, CARRY, MX, MC and MCARRY, to which R46 gives "no value", are zero:
DESIGN CHOICE, unsafe (assumption 1); no rule reads them before KEYSETUP has written them. -/
def Engine.reset : Engine :=
  { x := .fill 0, c := .fill 0, carry := false, mx := .fill 0, mc := .fill 0, mcarry := false,
    pend := [], keyed := false, fault := false, err := 0 }

/-- The whole machine: a platform of engines, the command last issued to one of them, and the host. -/
@[ext]
structure State where
  /-- The platform's parameters, which no step changes (R6). -/
  params  : Params
  /-- The engines; `N_ENGINES` of R6 is their number (R258). -/
  engines : List Engine
  /-- The engine the command in CMD was issued to: its index in `engines`. -/
  target  : Nat
  /-- CMD, the command register (R43). -/
  cmd     : Word
  /-- BUF, the operand buffer of that command (R60); after the command, what the host gets back. -/
  buf     : Buffer
  /-- The host's behaviour during that command (R71, R72). -/
  conduct : Conduct
  /-- How that command ended (R240); `none` before the first. The model's own record. -/
  ended   : Option CommandEnd
  /-- What the host does next, first thing first: the input of the machine (R30, assumption 2). -/
  inbox   : List HostEvent
  deriving DecidableEq, Repr

/-- Power-on (R270, R258): `n` engines at their power-on values, no command, no buffer, and a host that
is about to do `inbox`. CMD, BUF and the model's own fields have the values of assumption 13. -/
def State.powerOn (p : Params) (n : Nat) (inbox : List HostEvent) : State :=
  { params := p, engines := List.replicate n Engine.reset, target := 0, cmd := 0, buf := .empty,
    conduct := .exclusive, ended := none, inbox := inbox }

/-- The machine right after power-on reset: the default parameters and one engine (assumption 6), and a
host that has issued nothing, so that the engine executes nothing (R271). -/
def State.reset : State := .powerOn .default 1 []

/-- Where the machine stops with a fault. The faults of R245 are not among them: they are next
states. -/
inductive Fault where
  /-- `MemRead` or `MemWrite` at a byte index the buffer does not have, which R11 rules out. Raised by
  KEYSETUP, IVSETUP and PROCESS; safe. The length check of R66 stands before every access, so no
  step reaches it. -/
  | bufferIndex
  deriving DecidableEq, Repr

/-- Why a transaction has no meaning. -/
inductive Refusal where
  /-- An instruction without a meaning: raised by no arm of this model. -/
  | notModelled (mnemonic : String)
  /-- `refuse(BufferLengthMismatch)` of R66: the buffer is not as long as LEN says. Raised by every
  command before anything else (R250 point 1); safe. -/
  | bufferLengthMismatch
  /-- The host named an engine the platform does not have (R258 leaves naming to the platform). Raised by
  every command whose target is no index of `engines`; safe (assumption 7). -/
  | noSuchEngine
  deriving DecidableEq, Repr

/-- The outcome of a command or a step. -/
abbrev Outcome := Host.Outcome State Fault Refusal

end Sys2Proof.Machine
end

