-- ==== Sys2Proof/Machine/WordAlu.lean ====
section
/-! DEFINITION. The 32-bit word arithmetic unit of 40_word_alu.md: every operation R100 lists except
WRAP, which computes a flag and stands in Machine/Flags.lean. Each is a pure function of its operands
(R113). -/

namespace Sys2Proof.Machine

/-- ADD32 (R101): the sum modulo 2^32. -/
def add32 (a b : Word) : Word := BitVec.ofNat 32 (a.toNat + b.toNat)

/-- ADD32C (R102): the sum with a carry-in, modulo 2^32. -/
def add32c (a k : Word) (cin : Bool) : Word := BitVec.ofNat 32 (a.toNat + k.toNat + cin.toNat)

/-- MUL32 (R104): the low 32 bits of the product. -/
def mul32 (a b : Word) : Word := BitVec.ofNat 32 (a.toNat * b.toNat)

/-- SHL (R105), amounts 0 to 31. -/
def shl (a : Word) (n : Nat) : Word := a <<< n

/-- SHR (R106), amounts 0 to 31. -/
def shr (a : Word) (n : Nat) : Word := a >>> n

/-- XOR (R108). -/
def xor32 (a b : Word) : Word := a ^^^ b

/-- AND (R108). -/
def and32 (a b : Word) : Word := a &&& b

/-- OR (R108). -/
def or32 (a b : Word) : Word := a ||| b

/-- ROTL (R107), amounts 1 to 31. -/
def rotl (a : Word) (n : Nat) : Word := or32 (shl a n) (shr a (32 - n))

/-- HI16 (R109): bits [31:16], a value in 0 to FFFF. -/
def hi16 (a : Word) : Word := shr a 16

/-- LO16 (R109): bits [15:0], a value in 0 to FFFF. -/
def lo16 (a : Word) : Word := and32 a 0xFFFF

/-- CAT16 (R110), for two values in 0 to FFFF. -/
def cat16 (h l : Word) : Word := or32 (shl h 16) l

/-- The word of four bytes, the first the least significant: LE32 (R111) of bytes already read. -/
def wordOfBytes (b0 b1 b2 b3 : Byte) : Word :=
  or32 (or32 (or32 (b0.setWidth 32) (shl (b1.setWidth 32) 8)) (shl (b2.setWidth 32) 16))
    (shl (b3.setWidth 32) 24)

/-- LE32 (R111) of a byte sequence at an index; none when `o + 3` is outside it. -/
def le32 (s : List Byte) (o : Nat) : Option Word := do
  let b0 ← s[o]?
  let b1 ← s[o + 1]?
  let b2 ← s[o + 2]?
  let b3 ← s[o + 3]?
  return wordOfBytes b0 b1 b2 b3

/-- LEBYTES (R112): the four bytes of a word, least significant first. -/
def lebytes (w : Word) : List Byte :=
  [w.extractLsb' 0 8, w.extractLsb' 8 8, w.extractLsb' 16 8, w.extractLsb' 24 8]

end Sys2Proof.Machine
end

