-- ==== Sys2Proof/Machine/Flags.lean ====
section
/-! DEFINITION. The flag computations: WRAP, the carry of an addition (R103), the error codes, and
the STATUS register as the host reads it (R42). -/

namespace Sys2Proof.Machine

/-- WRAP (R103): 1 when the result of an addition is below its first operand, unsigned. -/
def wrap (new old : Word) : Bool := decide (new.toNat < old.toNat)

/-- The STATUS.ERR code of an error (R42, R241, R243). -/
def ErrorKind.code : ErrorKind → BitVec 2
  | .invalidKeySize => 1
  | .invalidIVSize => 2

/-- The STATUS register (R42): ERR in [1:0], KEYED in [8], FAULT in [9], every other bit 0. -/
def Engine.status (e : Engine) : Word :=
  or32 (or32 (e.err.setWidth 32) (shl ((BitVec.ofBool e.keyed).setWidth 32) 8))
    (shl ((BitVec.ofBool e.fault).setWidth 32) 9)

/-- PEND_LEN (R36), as the 4-bit register the hardware has. -/
def Engine.pendLen (e : Engine) : BitVec 4 := BitVec.ofNat 4 e.pend.length

end Sys2Proof.Machine
end

