-- ==== Sys2Proof/Machine/Ops.lean ====
section
/-! DEFINITION. The named operations: over the operand buffer (R11, R60, R67), over the bank of engines
(R258), and the ways a command begins and ends (R240, R242, R246, R250). -/

namespace Sys2Proof.Machine

/-! ### The operand buffer -/

/-- The byte listed at an index, 00 where none is. -/
def lookupCell : List Host.Cell → Nat → Byte
  | [], _ => 0#8
  | (b, v) :: rest, a => if a = b then v else lookupCell rest a

/-- The cells with the byte at an index replaced, in canonical form: a 00 is not listed. -/
def storeCell : List Host.Cell → Nat → Byte → List Host.Cell
  | [], a, v => if v = 0#8 then [] else [(a, v)]
  | (b, w) :: rest, a, v =>
    if a < b then (if v = 0#8 then (b, w) :: rest else (a, v) :: (b, w) :: rest)
    else if a = b then (if v = 0#8 then rest else (a, v) :: rest)
    else (b, w) :: storeCell rest a v

/-- `MemRead(i, 1)` (R11): the byte `BUF[i]`; none when the buffer has no byte `i`. -/
def Buffer.read (m : Buffer) (i : Nat) : Option Byte :=
  if i < m.len then some (lookupCell m.cells i) else none

/-- `MemWrite(i, 1, v)` (R11): sets `BUF[i]`; none when the buffer has no byte `i`. -/
def Buffer.write (m : Buffer) (i : Nat) (v : Byte) : Option Buffer :=
  if i < m.len then some { m with cells := storeCell m.cells i v } else none

/-- `MemWrite(i+j, 1, MemRead(i+j, 1) ^ ks[j])` for `j` from 0 on, one byte at a time in order, each read
before it is written (R67, R70, R195). -/
def Buffer.xorBytes (m : Buffer) (i : Nat) : List Byte → Option Buffer
  | [] => some m
  | k :: ks =>
    match m.read i with
    | none => none
    | some b =>
      match m.write i (b ^^^ k) with
      | none => none
      | some m' => m'.xorBytes (i + 1) ks

/-- The cells of a sequence of bytes placed from index `i` on. -/
def cellsFrom (i : Nat) : List Byte → List Host.Cell
  | [] => []
  | b :: bs => if b = 0#8 then cellsFrom (i + 1) bs else (i, b) :: cellsFrom (i + 1) bs

/-- The buffer that holds a sequence of bytes, `BUF[0]` first. -/
def Buffer.ofBytes (bs : List Byte) : Buffer := { len := bs.length, cells := cellsFrom 0 bs }

/-- The bytes of a buffer, `BUF[0]` first. -/
def Buffer.toBytes (m : Buffer) : List Byte := (List.range m.len).map (lookupCell m.cells)

/-- The buffer of `n` bytes 00. -/
def Buffer.zeros (n : Nat) : Buffer := { len := n, cells := [] }

/-! ### The registers of an engine -/

/-- Writes X, C and CARRY (the writers of R31, R32, R33). -/
def Engine.withCipher (e : Engine) (x c : Words8) (carry : Bool) : Engine :=
  { e with x := x, c := c, carry := carry }

/-- Writes the master snapshot (R34). It is held by value: no write of X, C or CARRY changes it (R35). -/
def Engine.withSnapshot (e : Engine) (mx mc : Words8) (mcarry : Bool) : Engine :=
  { e with mx := mx, mc := mc, mcarry := mcarry }

/-- Writes PEND (R38). -/
def Engine.withPend (e : Engine) (pend : List Byte) : Engine := { e with pend := pend }

/-- Writes KEYED (R39). -/
def Engine.withKeyed (e : Engine) (keyed : Bool) : Engine := { e with keyed := keyed }

/-- Writes STATUS.ERR (R42). -/
def Engine.withErr (e : Engine) (err : BitVec 2) : Engine := { e with err := err }

/-- Sets FAULT (R41, R246). -/
def Engine.withFault (e : Engine) : Engine := { e with fault := true }

/-! ### The bank of engines -/

/-- The engine the current command was issued to; none where the platform has no such engine. -/
def State.engine? (s : State) : Option Engine := s.engines[s.target]?

/-- The state with that engine replaced; every other engine stays as it was (R258). -/
def State.putEngine (s : State) (e : Engine) : State :=
  { s with engines := s.engines.set s.target e }

/-- STATUS of engine `k`, which the host may read between commands (R42, R68). -/
def State.status? (s : State) (k : Nat) : Option Word := (s.engines[k]?).map Engine.status

/-! ### How a command ends -/

/-- `status <- OK`: the command completes, with `e` the engine its rule leaves (R240 (1), R12). -/
def State.complete (s : State) (e : Engine) : Outcome :=
  .next { s.putEngine (e.withErr 0) with ended := some .completed }

/-- `status <- E` for an error: STATUS.ERR takes the code and nothing else changes (R242). -/
def State.failWith (s : State) (e : Engine) (k : ErrorKind) : Outcome :=
  .next { s.putEngine (e.withErr k.code) with ended := some (.error k) }

/-- `raise Fault(reason)`, the one way a fault is taken: FAULT is set and nothing else changes, STATUS.ERR
included (R246). There is no saved state, no mode and no handler (R251); the only way back is
power-on reset (R252), `State.powerOnReset`. -/
def State.raise (s : State) (e : Engine) (r : FaultReason) : Outcome :=
  .next { s.putEngine e.withFault with ended := some (.fault r) }

/-! ### How a command begins -/

/-- Points 1 to 3 of R250, which come before every command's own rule: the refusal of R66, then
ConcurrentUse (R249), then Faulted (R246). A transaction that passes them goes on with the engine it is
issued to. -/
def State.gate (s : State) (len : Nat) (k : Engine → Outcome) : Outcome :=
  if s.buf.len ≠ len then .refused .bufferLengthMismatch
  else
    match s.engine? with
    | none => .refused .noSuchEngine
    | some e =>
      if s.conduct ≠ .exclusive then s.raise e .concurrentUse
      else if e.fault = true then s.raise e .faulted
      else k e

/-- Point 6 of R250: NotKeyed when KEYED = 0 (R247). -/
def State.requireKeyed (s : State) (e : Engine) (o : Outcome) : Outcome :=
  if e.keyed = true then o else s.raise e .notKeyed

/-- A command word the decoder rejects: IllegalCommand (R248), after points 1 to 3 of R250. -/
def State.illegalCommand (s : State) (len : Nat) : Outcome :=
  s.gate len fun e => s.raise e .illegalCommand

/-! ### The host -/

/-- The host issues a transaction (R80): CMD, BUF and the engine are the transaction's. -/
def State.latch (s : State) (t : Transaction) (rest : List HostEvent) : State :=
  { s with target := t.engine, cmd := t.cmd, buf := t.buf, conduct := t.conduct, inbox := rest }

/-- Power-on reset (R270), the only event that clears FAULT: every engine takes its power-on values. -/
def State.powerOnReset (s : State) (rest : List HostEvent) : State :=
  .powerOn s.params s.engines.length rest

end Sys2Proof.Machine
end

