-- ==== Sys2Proof/Machine/Operands.lean ====
section
/-! DEFINITION. The operands a command assembles from its buffer (R64, R83): the key words and the IV
words. The data bytes of PROCESS are read one by one in Machine/Keystream.lean. -/

namespace Sys2Proof.Machine

/-- `LE32(BUF, o)` (R111): four bytes read in turn, the first the least significant (R63). -/
def Buffer.le32 (m : Buffer) (o : Nat) : Option Word := do
  let b0 ← m.read o
  let b1 ← m.read (o + 1)
  let b2 ← m.read (o + 2)
  let b3 ← m.read (o + 3)
  return wordOfBytes b0 b1 b2 b3

/-- The key words `K[j] = LE32(BUF, 4j)` (R132). -/
def Buffer.keyWords (m : Buffer) : Option Words4 := do
  let k0 ← m.le32 0
  let k1 ← m.le32 4
  let k2 ← m.le32 8
  let k3 ← m.le32 12
  return ⟨k0, k1, k2, k3⟩

/-- The IV words of R152 from the two words the buffer holds:
`D[1]` takes the high halves of both and `D[3]` the low halves (90_conflicts.md C2). -/
def ivWordsOf (d0 d2 : Word) : Words4 :=
  ⟨d0, or32 (shr d0 16) (and32 d2 0xFFFF0000), d2, or32 (shl d2 16) (and32 d0 0x0000FFFF)⟩

/-- The IV words `D[0..3]`, with `D[0] = LE32(BUF, 0)` and `D[2] = LE32(BUF, 4)` (R152). -/
def Buffer.ivWords (m : Buffer) : Option Words4 := do
  let d0 ← m.le32 0
  let d2 ← m.le32 4
  return ivWordsOf d0 d2

end Sys2Proof.Machine
end

