-- ==== Sys2Proof/Machine/NextState.lean ====
section
/-! DEFINITION. NEXTSTATE (43_next_state.md): the round that KEYSETUP, IVSETUP and PROCESS run. Not a
command: it has no opcode (R181). -/

namespace Sys2Proof.Machine

/-- The counter constants `A[0..7]`, the configuration table `RABBIT_A` (R170, R6; 90_conflicts.md C1). -/
def counterConstants : Words8 :=
  ⟨0x4D34D34D, 0xD34D34D3, 0x34D34D34, 0x4D34D34D, 0xD34D34D3, 0x34D34D34, 0x4D34D34D, 0xD34D34D3⟩

/-- The carry into counter word `i` of a round, and for `i = 8` the carry out of the last (R171, R172).
The carry into word 0 is CARRY; each later one is the WRAP of the word before it, so that the chain
is a sequential fold in index order (R275). -/
def carryInto (c : Words8) (carry : Bool) : Nat → Bool
  | 0 => carry
  | i + 1 =>
    let old := c.get (Fin.ofNat 8 i)
    wrap (add32c old (counterConstants.get (Fin.ofNat 8 i)) (carryInto c carry i)) old

/-- The counter words after the chain of R171. -/
def counterUpdate (c : Words8) (carry : Bool) : Words8 :=
  .ofFn fun i => add32c (c.get i) (counterConstants.get i) (carryInto c carry i.val)

/-- `G(u)` (R174). -/
def gFunction (u : Word) : Word :=
  let a := lo16 u
  let b := hi16 u
  let s := mul32 a a
  let t := shr (add32 (shr s 17) (mul32 a b)) 15
  xor32 (add32 t (mul32 b b)) (mul32 u u)

/-- The g-values `g[i] = G(X[i] + C[i])` (R175), from the state words before the round and the counter
words after their update. -/
def gValues (x c : Words8) : Words8 := .ofFn fun i => gFunction (add32 (x.get i) (c.get i))

/-- The new state words (R177), all from one set of g-values (R178). -/
def stateUpdate (g : Words8) : Words8 :=
  .ofFn fun i =>
    if i.val % 2 = 0 then
      add32 (add32 (g.get i) (rotl (g.get (i - 1)) 16)) (rotl (g.get (i - 2)) 16)
    else add32 (add32 (g.get i) (rotl (g.get (i - 1)) 8)) (g.get (i - 2))

/-- NEXTSTATE (R179): one round. It changes X, C and CARRY and nothing else. -/
def Engine.nextState (e : Engine) : Engine :=
  let c := counterUpdate e.c e.carry
  e.withCipher (stateUpdate (gValues e.x c)) c (carryInto e.c e.carry 8)

/-- `n` rounds in succession. -/
def Engine.rounds : Nat → Engine → Engine
  | 0, e => e
  | n + 1, e => (Engine.rounds n e).nextState

end Sys2Proof.Machine
end

