-- ==== Sys2Proof/Machine/IvSetup.lean ====
section
/-! DEFINITION. IVSETUP (42_iv_setup.md): the IV-derive mixer. -/

namespace Sys2Proof.Machine

/-- The new counter `C[i] <- MC[i] ^ D[i mod 4]` (R153). -/
def ivCounter (mc : Words8) (d : Words4) : Words8 := .ofFn fun i => xor32 (mc.get i) (d.get i.val)

/-- The state of a fresh IV: counter from MC and the IV, X and CARRY from the snapshot, four warm-up
rounds (R153, R154). The snapshot is only read, PEND is not touched (R158). -/
def Engine.ivDerive (e : Engine) (d : Words4) : Engine :=
  (e.withCipher e.mx (ivCounter e.mc d) e.mcarry).rounds warmupRounds

/-- IVSETUP (R155), its checks in the order of R151. -/
def execIvsetup (len : Nat) (s : State) : Outcome :=
  s.gate len fun e => s.requireKeyed e <|
    if len ≠ ivBytes then s.failWith e .invalidIVSize
    else
      match s.buf.ivWords with
      | none => .fault .bufferIndex
      | some d => s.complete (e.ivDerive d)

end Sys2Proof.Machine
end

