-- ==== Sys2Proof/Machine/KeySetup.lean ====
section
/-! DEFINITION. KEYSETUP (41_key_setup.md): the key-schedule state initializer. -/

namespace Sys2Proof.Machine

/-- The initial state words of a key (R132). -/
def keyState (k : Words4) : Words8 :=
  ⟨k.w0, or32 (shl k.w3 16) (shr k.w2 16),
   k.w1, or32 (shl k.w0 16) (shr k.w3 16),
   k.w2, or32 (shl k.w1 16) (shr k.w0 16),
   k.w3, or32 (shl k.w2 16) (shr k.w1 16)⟩

/-- The upper half of one word with the lower half of another: the odd counter words of R133. -/
def joinHalves (a b : Word) : Word := or32 (and32 a 0xFFFF0000) (and32 b 0xFFFF)

/-- The initial counter words of a key (R133). -/
def keyCounter (k : Words4) : Words8 :=
  ⟨rotl k.w2 16, joinHalves k.w0 k.w1,
   rotl k.w3 16, joinHalves k.w1 k.w2,
   rotl k.w0 16, joinHalves k.w2 k.w3,
   rotl k.w1 16, joinHalves k.w3 k.w0⟩

/-- `C[i] ^ X[(i+4) mod 8]` for every i, simultaneous (R135). -/
def coupledCounter (x c : Words8) : Words8 := .ofFn fun i => xor32 (c.get i) (x.get (i + 4))

/-- The coupling step of R135: it writes C and reads X; CARRY keeps its value. -/
def Engine.couple (e : Engine) : Engine := e.withCipher e.x (coupledCounter e.x e.c) e.carry

/-- The master snapshot of R136, taken when the key schedule is done, with an empty PEND and KEYED. -/
def Engine.takeSnapshot (e : Engine) : Engine :=
  ((e.withSnapshot e.x e.c e.carry).withPend []).withKeyed true

/-- The engine of a fresh key: initial words (R132, R133), CARRY 0 and four warm-up rounds (R134), then
coupling and snapshot. -/
def Engine.keySchedule (e : Engine) (k : Words4) : Engine :=
  ((e.withCipher (keyState k) (keyCounter k) false).rounds warmupRounds).couple.takeSnapshot

/-- KEYSETUP (R137). It needs no key to be present (R130); a wrong length is InvalidKeySize, before the
buffer is read (R131). -/
def execKeysetup (len : Nat) (s : State) : Outcome :=
  s.gate len fun e =>
    if len ≠ keyBytes then s.failWith e .invalidKeySize
    else
      match s.buf.keyWords with
      | none => .fault .bufferIndex
      | some k => s.complete (e.keySchedule k)

end Sys2Proof.Machine
end

