-- ==== Sys2Proof/Machine/Keystream.lean ====
section
/-! DEFINITION. EXTRACT and PROCESS (44_keystream.md): the keystream extractor and the partial-block
carry buffer. -/

namespace Sys2Proof.Machine

/-- The output word `o[k]` (R190), `k` in 0 to 3. -/
def outputWord (x : Words8) (k : Fin 8) : Word :=
  xor32 (xor32 (x.get (2 * k)) (shr (x.get (2 * k + 5)) 16)) (shl (x.get (2 * k + 3)) 16)

/-- EXTRACT (R191, R192): the 16 keystream bytes of a state, which it only reads. -/
def extract (x : Words8) : List Byte :=
  lebytes (outputWord x 0) ++ lebytes (outputWord x 1) ++ lebytes (outputWord x 2)
    ++ lebytes (outputWord x 3)

/-- The `while i < LEN` loop of R195: phases 2 and 3, one round per block (R197, R198). Each turn uses
up at least one byte, so `fuel` need only count the bytes left; the loop bound is LEN (R91). -/
def processBlocks (len : Nat) : (fuel : Nat) → Engine → Buffer → (i : Nat) → Option (Engine × Buffer)
  | 0, e, m, _ => some (e, m)
  | fuel + 1, e, m, i =>
    if len ≤ i then some (e, m)
    else
      let e' := e.nextState
      let ks := extract e'.x
      let r := len - i
      if blockBytes ≤ r then
        match m.xorBytes i ks with
        | none => none
        | some m' => processBlocks len fuel e' m' (i + blockBytes)
      else
        match m.xorBytes i (ks.take r) with
        | none => none
        | some m' => some (e'.withPend (ks.drop r), m')

/-- The body of PROCESS: phase 1 uses up PEND (R196), then the loop. -/
def Engine.process (e : Engine) (m : Buffer) (len : Nat) : Option (Engine × Buffer) :=
  let n := min len e.pend.length
  match m.xorBytes 0 (e.pend.take n) with
  | none => none
  | some m' => processBlocks len (len - n) (e.withPend (e.pend.drop n)) m' n

/-- PROCESS (R195): the one check is KEYED, for every length (R194); there is no error. -/
def execProcess (len : Nat) (s : State) : Outcome :=
  s.gate len fun e => s.requireKeyed e <|
    match e.process s.buf len with
    | none => .fault .bufferIndex
    | some (e', m') => State.complete { s with buf := m' } e'

end Sys2Proof.Machine
end

