-- ==== Sys2Proof/Machine/ResetOps.lean ====
section
/-! DEFINITION. REWIND and PURGE (45_reset_ops.md). Neither is a power-on reset. -/

namespace Sys2Proof.Machine

/-- REWIND's effect (R221): X, C and CARRY from the snapshot; PEND emptied only under
`P_REWIND_CLEARS_PENDING` (R222, 90_conflicts.md C4). -/
def Engine.rewind (p : Params) (e : Engine) : Engine :=
  (e.withCipher e.mx e.mc e.mcarry).withPend (if p.rewindClearsPending = true then [] else e.pend)

/-- REWIND (R221), with the KEYED check of R220. -/
def execRewind (s : State) : Outcome :=
  s.gate 0 fun e => s.requireKeyed e <| s.complete (e.rewind s.params)

/-- PURGE's effect (R225): state and snapshot zero, KEYED 0, PEND kept (R226). -/
def Engine.purge (e : Engine) : Engine :=
  ((e.withCipher (.fill 0) (.fill 0) false).withSnapshot (.fill 0) (.fill 0) false).withKeyed false

/-- PURGE (R225). It has no KEYED check (R224, R227). -/
def execPurge (s : State) : Outcome :=
  s.gate 0 fun e => s.complete e.purge

end Sys2Proof.Machine
end

