-- ==== Sys2Proof/Machine/Dispatch.lean ====
section
/-! DEFINITION. One arm per command (R82). -/

namespace Sys2Proof.Machine

def exec (i : Instr) (s : State) : Host.Outcome State Fault Refusal :=
  match i with
  | .keysetup len => Sys2Proof.Machine.execKeysetup len s
  | .ivsetup len => Sys2Proof.Machine.execIvsetup len s
  | .process len => Sys2Proof.Machine.execProcess len s
  | .rewind => Sys2Proof.Machine.execRewind s
  | .purge => Sys2Proof.Machine.execPurge s

end Sys2Proof.Machine
end

