-- ==== Sys2Proof/Machine/Step.lean ====
section
/-! DEFINITION. One step: the next thing the host does, and the engine's whole response to it. A command
is atomic (R68) and complete before the next (R70), so it is one step. -/

namespace Sys2Proof.Machine

/-- The command now in CMD: decoded (R87, assumption 15) and executed, or IllegalCommand where it is no
command. -/
def State.runCommand (s : State) : Outcome :=
  match decode s.cmd with
  | .ok i => exec i s
  | .error _ => s.illegalCommand (lenField s.cmd)

/-- One step. With nothing from the host the engines execute nothing (R271, assumption 9); a power-on
resets them (R270, assumption 8); a transaction is latched and run. -/
def step (s : State) : Host.Outcome State Fault Refusal :=
  match s.inbox with
  | [] => .next s
  | .powerOn :: rest => .next (s.powerOnReset rest)
  | .issue t :: rest => (s.latch t rest).runCommand

/-- The state in which the host's next action is to issue the command word `w` to engine 0, with a
buffer of as many bytes 00 as the word's LEN says (R66) and the host at rest while it runs. The
engine fetches nothing (R75): this is where its next command comes from (assumption 2). -/
def State.withFetchWord (s : State) (nbits w : Nat) : State :=
  { s with
    inbox := .issue { engine := 0, cmd := BitVec.ofNat 32 (w % 2 ^ nbits),
                      buf := .zeros (lenField (BitVec.ofNat 32 (w % 2 ^ nbits))),
                      conduct := .exclusive } :: s.inbox }

end Sys2Proof.Machine
end

