-- ==== Sys2Proof/Machine/Assembler.lean ====
section
/-! DEFINITION. The assembly lines of 30_encoding.md R89 and the pseudo-instructions of R90: how a host
writes commands. The machine never reads a line, only the transaction it stands for. -/

namespace Sys2Proof.Machine

/-- One assembly line (R89): a command and its operand bytes, `BUF[0]` first. -/
structure AsmLine where
  instr : Instr
  bytes : List Byte
  deriving DecidableEq, Repr

/-- A line the assembler takes: the length fits its field and is the number of bytes listed
(R66, R89). -/
abbrev AsmLine.Wf (l : AsmLine) : Prop := l.instr.WellFormed ∧ l.bytes.length = l.instr.len

/-- What the assembler makes of a line (R89): the command word and the buffer, issued to engine `k`. -/
def AsmLine.assemble (k : Nat) (l : AsmLine) : Transaction :=
  { engine := k, cmd := encode l.instr, buf := .ofBytes l.bytes, conduct := .exclusive }

/-- A byte in two hexadecimal digits. -/
def hexByte (b : Byte) : String :=
  let digits := "0123456789ABCDEF".toList
  String.ofList [digits.getD (b.toNat / 16) '0', digits.getD (b.toNat % 16) '0']

/-- An operand list, bytes in hexadecimal between brackets. -/
def operandText (len : Nat) (bs : List Byte) : String :=
  " " ++ toString len ++ ", [" ++ " ".intercalate (bs.map hexByte) ++ "]"

/-- A line in the syntax of R89. -/
def AsmLine.text (l : AsmLine) : String :=
  match l.instr with
  | .keysetup n => "KEYSETUP" ++ operandText n l.bytes
  | .ivsetup n => "IVSETUP" ++ operandText n l.bytes
  | .process n => "PROCESS" ++ operandText n l.bytes
  | .rewind => "REWIND"
  | .purge => "PURGE"

/-- The pseudo-instructions of R90. -/
inductive Pseudo where
  /-- `NEWCIPHER [16 bytes]` -/
  | newcipher (key : List Byte)
  /-- `SETIV [8 bytes]` -/
  | setiv (iv : List Byte)
  /-- `ENCRYPT n, [bytes]` -/
  | encrypt (bytes : List Byte)
  /-- `DECRYPT n, [bytes]` -/
  | decrypt (bytes : List Byte)
  /-- `KEYSTREAM n` -/
  | keystream (n : Nat)
  /-- `RESETCIPHER` -/
  | resetcipher
  /-- `PROCESS* n, [bytes]`, for a message longer than the length field can say -/
  | processLong (bytes : List Byte)
  deriving DecidableEq, Repr

/-- A message cut into consecutive chunks of at most `n` bytes, in order; `fuel` counts the bytes. -/
def chunks (n : Nat) : (fuel : Nat) → List Byte → List (List Byte)
  | 0, _ => []
  | _ + 1, [] => []
  | fuel + 1, b :: bs => (b :: bs).take n :: chunks n fuel ((b :: bs).drop n)

/-- The expansion of a pseudo-instruction (R90). R90 leaves the chunk lengths of `PROCESS*` open; here each
is as long as the field allows (assumption 12), and R201 makes the choice unobservable. -/
def Pseudo.expand : Pseudo → List AsmLine
  | .newcipher key => [⟨.keysetup 16, key⟩]
  | .setiv iv => [⟨.ivsetup 8, iv⟩]
  | .encrypt bs => [⟨.process bs.length, bs⟩]
  | .decrypt bs => [⟨.process bs.length, bs⟩]
  | .keystream n => [⟨.process n, List.replicate n 0⟩]
  | .resetcipher => [⟨.rewind, []⟩]
  | .processLong bs =>
    (chunks (lenBound - 1) bs.length bs).map fun b => ⟨.process b.length, b⟩

/-- A host about to issue the lines of a program, in order, to engine `k`. -/
def State.withProgram (s : State) (k : Nat) (ls : List AsmLine) : State :=
  { s with inbox := ls.map fun l => .issue (l.assemble k) }

end Sys2Proof.Machine
end

