-- ==== Sys2Proof/Safety.lean ====
section
/-! DEFINITION. The terms in which claims about the machine are made: its invariant, when a command is
accepted, the state a command leaves, the keystream of an engine, and what a run may end in. -/

namespace Sys2Proof

/-- The commands that need a key (R247). -/
abbrev Instr.needsKey : Instr → Bool
  | .ivsetup _ => true
  | .process _ => true
  | .rewind => true
  | .keysetup _ => false
  | .purge => false

namespace Machine

/-- What holds of an engine in every reachable state: PEND_LEN is at most 15 (R37) and STATUS.ERR is
never 3 (R244). -/
abbrev Engine.Ok (e : Engine) : Prop := e.pend.length ≤ 15 ∧ e.err ≠ 3#2

/-- A host event whose buffer is in canonical form. -/
abbrev HostEvent.Ok : HostEvent → Prop
  | .issue t => t.buf.Wf
  | .powerOn => True

/-- The invariant of the machine: at least one engine (R6), each of them `Ok`, and every buffer in
canonical form. -/
structure State.Inv (s : State) : Prop where
  hasEngine : s.engines ≠ []
  enginesOk : ∀ e ∈ s.engines, e.Ok
  bufWf     : s.buf.Wf
  inboxOk   : s.inbox.Forall HostEvent.Ok

/-- The command in the state passes points 1 to 3 of R250: its buffer has the length `len` of its
command word, its engine is `e`, nothing else is in progress, and `e` has not faulted. -/
abbrev State.Ready (s : State) (len : Nat) (e : Engine) : Prop :=
  s.buf.len = len ∧ s.engine? = some e ∧ s.conduct = .exclusive ∧ e.fault = false

/-- The host's next action is to issue `t`, with a buffer of the length its command word says, to the
engine `e`. -/
abbrev State.Issues (s : State) (t : Transaction) (rest : List HostEvent) (e : Engine) : Prop :=
  s.inbox = .issue t :: rest ∧ t.buf.len = lenField t.cmd ∧ s.engines[t.engine]? = some e

/-- The state after a command: its engine is `e`, its buffer `m`, it ended as `c`, and EVERYTHING ELSE is
as it was: the other engines, the parameters, CMD and the host. -/
def State.after (s : State) (e : Engine) (m : Buffer) (c : CommandEnd) : State :=
  { s with engines := s.engines.set s.target e, buf := m, ended := some c }

/-- Byte `n` of the pending stream of an engine (R200): PEND first, then the blocks EXTRACT gives after
1, 2, ... rounds. -/
def Engine.streamByte (e : Engine) (n : Nat) : Byte :=
  if n < e.pend.length then e.pend.getD n 0
  else
    let m := n - e.pend.length
    (extract (e.rounds (m / 16 + 1)).x).getD (m % 16) 0

/-- PEND_LEN after `total` bytes since the key (R202). -/
def pendLenOf (total : Nat) : Nat := (16 - total % 16) % 16

/-- The total of R202 after a command that ended as `c`: the bytes PROCESS has processed since the last
successful KEYSETUP, and since the last REWIND where REWIND clears PEND. -/
def totalAfter (p : Params) (total : Nat) (i : Instr) (c : CommandEnd) : Nat :=
  match c with
  | .error _ => total
  | .fault _ => total
  | .completed =>
    match i with
    | .keysetup _ => 0
    | .ivsetup _ => total
    | .process len => total + len
    | .rewind => if p.rewindClearsPending = true then 0 else total
    | .purge => total

/-- Two engines that differ at most in what R46 gives no value to: X, C, CARRY and the master snapshot of
an engine that is not keyed. -/
def Engine.SameButUnset (e e' : Engine) : Prop :=
  e' = e ∨
  (e.keyed = false ∧
    e' = { e with x := e'.x, c := e'.c, carry := e'.carry, mx := e'.mx, mc := e'.mc, mcarry := e'.mcarry })

/-- Two states that differ at most so, engine by engine. -/
def State.SameButUnset (s s' : State) : Prop :=
  List.Forall₂ Engine.SameButUnset s.engines s'.engines ∧ s' = { s with engines := s'.engines }

/-- The machine's outcome is the same but for values R46 leaves unset: both go on, in states that differ
at most so, or both stop for the same reason. -/
def Outcome.SameButUnset : Outcome → Outcome → Prop
  | .next t, .next t' => t.SameButUnset t'
  | .fault f, .fault f' => f = f'
  | .refused r, .refused r' => r = r'
  | .next _, .fault _ => False
  | .next _, .refused _ => False
  | .fault _, .next _ => False
  | .fault _, .refused _ => False
  | .refused _, .next _ => False
  | .refused _, .fault _ => False

/-- Two outcomes agree but for `ENGINE_BASE`: the second's state is the first's with the base `b`. -/
def Outcome.SameButBase (b : Nat) : Outcome → Outcome → Prop
  | .next t, .next t' => t' = { t with params := { t.params with engineBase := b } }
  | .fault f, .fault f' => f = f'
  | .refused r, .refused r' => r = r'
  | .next _, .fault _ => False
  | .next _, .refused _ => False
  | .fault _, .next _ => False
  | .fault _, .refused _ => False
  | .refused _, .next _ => False
  | .refused _, .fault _ => False

/-- The number the counter words of a file stand for, word 0 least significant (R173). -/
def wordsValue (v : Words8) : Nat := v.toList.foldr (fun w n => w.toNat + 2 ^ 32 * n) 0

/-- A run may end in a state only when no engine is faulted (R246: a faulted state is never a final state
of a run). -/
abbrev State.MayEnd (s : State) : Prop := ∀ e ∈ s.engines, e.fault = false

/-- A safe run of `k` steps: the machine answers every one and the run may end where it ends. -/
def State.RunsSafely (s : State) (k : Nat) : Prop :=
  ∃ t, Sys2Proof.core.run k s = .next t ∧ t.MayEnd

end Machine

end Sys2Proof
end

