-- ==== Sys2Proof/Certificates/Slice0/Obligations.lean ====
section
/-! DEFINITION. The statements about the machine, from the numbered rules of spec/.

`State.after e m c` is the whole state a command leaves: engine `e` in place of the one it was issued
to, buffer `m`, end `c`, and everything else as it was. A conclusion `exec i s = .next (s.after e' m c)`
therefore says what the command does AND its frame. -/

open Sys2Proof Sys2Proof.Machine

/-! ### The word arithmetic unit -/

/-- R103: WRAP is the unsigned comparison, and the true carry whenever `1 <= k + cin <= 2^32 - 1`. -/
def Obligations.WrapIsTheTrueCarry : Prop :=
  (∀ new old : Word, wrap new old = true ↔ new.toNat < old.toNat) ∧
  ∀ (old k : Word) (cin : Bool), 1 ≤ k.toNat + cin.toNat → k.toNat + cin.toNat ≤ 2 ^ 32 - 1 →
    (wrap (add32c old k cin) old = true ↔ 2 ^ 32 ≤ old.toNat + k.toNat + cin.toNat)

/-- R107, R109, R110: the half-words of a word, their concatenation, and the 16-bit rotation, which swaps
them and is its own inverse. -/
def Obligations.HalfWordsConcatenateAndSwap : Prop :=
  ∀ a : Word,
    (hi16 a).toNat = a.toNat / 2 ^ 16 ∧ (lo16 a).toNat = a.toNat % 2 ^ 16 ∧
    cat16 (hi16 a) (lo16 a) = a ∧ cat16 (lo16 a) (hi16 a) = rotl a 16 ∧ rotl (rotl a 16) 16 = a

/-- R107: a left rotation by 1 to 31, bit by bit: bit `j` of the result is bit `j - n`, modulo 32. -/
def Obligations.RotationMovesEveryBit : Prop :=
  ∀ (a : Word) (n j : Nat), 1 ≤ n → n ≤ 31 → j < 32 →
    (rotl a n).getLsbD j = a.getLsbD ((j + 32 - n) % 32)

/-- R111, R112: LE32 is the little-endian value of four bytes, and LEBYTES is its inverse. -/
def Obligations.LittleEndianWordsRoundTrip : Prop :=
  (∀ w : Word, le32 (lebytes w) 0 = some w) ∧
  ∀ (s : List Byte) (o : Nat) (b0 b1 b2 b3 : Byte),
    s[o]? = some b0 → s[o + 1]? = some b1 → s[o + 2]? = some b2 → s[o + 3]? = some b3 →
    ∃ w, le32 s o = some w ∧ lebytes w = [b0, b1, b2, b3] ∧
      w.toNat = b0.toNat + b1.toNat * 2 ^ 8 + b2.toNat * 2 ^ 16 + b3.toNat * 2 ^ 24

/-! ### The round -/

/-- R170, R171, R172: the counter chain of a round, in index order: each word adds its constant and the
carry of the word before it, and CARRY is the carry out of word 7. -/
def Obligations.CounterChainPropagatesCarries : Prop :=
  ∀ e : Engine, ∃ cin : Nat → Bool,
    cin 0 = e.carry ∧
    (∀ i : Fin 8,
      e.nextState.c.get i =
        add32c (e.c.get i)
          ((⟨0x4D34D34D, 0xD34D34D3, 0x34D34D34, 0x4D34D34D, 0xD34D34D3, 0x34D34D34, 0x4D34D34D,
            0xD34D34D3⟩ : Words8).get i) (cin i.val) ∧
      cin (i.val + 1) = wrap (e.nextState.c.get i) (e.c.get i)) ∧
    e.nextState.carry = cin 8

/-- R173 (a): the counter chain is the exact 256-bit addition of the constants and CARRY, and the new
CARRY is its carry out. -/
def Obligations.CounterUpdateIs256BitAddition : Prop :=
  ∀ e : Engine,
    wordsValue e.nextState.c =
      (wordsValue e.c + wordsValue counterConstants + e.carry.toNat) % 2 ^ 256 ∧
    (e.nextState.carry = true ↔
      2 ^ 256 ≤ wordsValue e.c + wordsValue counterConstants + e.carry.toNat)

/-- R176 (b): `G(u)` is the high half of the exact square XOR its low half. -/
def Obligations.GIsHighXorLowOfTheSquare : Prop :=
  ∀ u : Word,
    gFunction u =
      BitVec.ofNat 32 (u.toNat * u.toNat / 2 ^ 32) ^^^ BitVec.ofNat 32 (u.toNat * u.toNat % 2 ^ 32)

/-- R175, R177: the new state words, all from the g-values of the old X and the NEW counter words, even
words with two 16-bit rotations and odd words with one 8-bit rotation. -/
def Obligations.RoundUpdatesTheStateWords : Prop :=
  ∀ (e : Engine) (g : Fin 8 → Word),
    (∀ i, g i = gFunction (e.x.get i + e.nextState.c.get i)) →
    e.nextState.x.w0 = g 0 + rotl (g 7) 16 + rotl (g 6) 16 ∧
    e.nextState.x.w1 = g 1 + rotl (g 0) 8 + g 7 ∧
    e.nextState.x.w2 = g 2 + rotl (g 1) 16 + rotl (g 0) 16 ∧
    e.nextState.x.w3 = g 3 + rotl (g 2) 8 + g 1 ∧
    e.nextState.x.w4 = g 4 + rotl (g 3) 16 + rotl (g 2) 16 ∧
    e.nextState.x.w5 = g 5 + rotl (g 4) 8 + g 3 ∧
    e.nextState.x.w6 = g 6 + rotl (g 5) 16 + rotl (g 4) 16 ∧
    e.nextState.x.w7 = g 7 + rotl (g 6) 8 + g 5

/-- R190, R191: the keystream block of a state: its four output words, and byte `j` of the block as byte
`j mod 4` of word `j div 4`. -/
def Obligations.ExtractSerializesTheOutputWords : Prop :=
  ∀ (x : Words8) (o : Nat → Word),
    o 0 = x.w0 ^^^ (x.w5 >>> 16) ^^^ (x.w3 <<< 16) →
    o 1 = x.w2 ^^^ (x.w7 >>> 16) ^^^ (x.w5 <<< 16) →
    o 2 = x.w4 ^^^ (x.w1 >>> 16) ^^^ (x.w7 <<< 16) →
    o 3 = x.w6 ^^^ (x.w3 >>> 16) ^^^ (x.w1 <<< 16) →
    (extract x).length = 16 ∧
    ∀ j < 16, (extract x).getD j 0 = BitVec.ofNat 8 ((o (j / 4)).toNat / 2 ^ (8 * (j % 4)) % 256)

/-! ### KEYSETUP -/

/-- R132, R133, R134, R135: KEYSETUP of a 16-byte key, with the closed forms of the initial words, four
rounds and the coupling; the snapshot, the empty PEND and KEYED of R136; and the frame. -/
def Obligations.KeysetupRunsTheKeySchedule : Prop :=
  ∀ (s : State) (e : Engine) (b : Nat → Byte), s.Ready 16 e →
    (∀ j < 16, s.buf.read j = some (b j)) →
    let k : Nat → Word := fun j =>
      wordOfBytes (b (4 * (j % 4))) (b (4 * (j % 4) + 1)) (b (4 * (j % 4) + 2)) (b (4 * (j % 4) + 3))
    let odd : Nat → Word := fun j =>
      rotl ((k (j + 2) &&& 0xFFFF0000) ||| (k (j + 3) &&& 0xFFFF)) 16
    let half : Nat → Word := fun j => cat16 (hi16 (k j)) (lo16 (k (j + 1)))
    let x : Words8 := ⟨k 0, odd 0, k 1, odd 1, k 2, odd 2, k 3, odd 3⟩
    let c : Words8 :=
      ⟨rotl (k 2) 16, half 0, rotl (k 3) 16, half 1, rotl (k 0) 16, half 2, rotl (k 1) 16, half 3⟩
    ∃ e' : Engine,
      exec (.keysetup 16) s = .next (s.after e' s.buf .completed) ∧
      ∀ w : Engine, w = Engine.rounds 4 { e with x := x, c := c, carry := false } →
        e'.x = w.x ∧ (∀ i, e'.c.get i = w.c.get i ^^^ w.x.get (i + 4)) ∧ e'.carry = w.carry ∧
        e'.mx = e'.x ∧ e'.mc = e'.c ∧ e'.mcarry = e'.carry ∧
        e'.pend = [] ∧ e'.keyed = true ∧ e'.fault = false ∧ e'.err = 0

/-- R131: any other length is InvalidKeySize, whatever the buffer holds and whether or not the engine is
keyed, and nothing but STATUS.ERR changes. -/
def Obligations.KeysetupRejectsOtherLengths : Prop :=
  ∀ (s : State) (e : Engine) (n : Nat), s.Ready n e → n ≠ 16 →
    exec (.keysetup n) s = .next (s.after { e with err := 1 } s.buf (.error .invalidKeySize))

/-- R138 (a), (b): the engine KEYSETUP leaves depends on the key bytes only, not on the engine before it,
and its state is its snapshot. -/
def Obligations.KeysetupDependsOnTheKeyOnly : Prop :=
  ∀ (s s' : State) (e e' : Engine), s.Ready 16 e → s'.Ready 16 e' →
    (∀ j < 16, s.buf.read j = s'.buf.read j) →
    ∃ f : Engine,
      exec (.keysetup 16) s = .next (s.after f s.buf .completed) ∧
      exec (.keysetup 16) s' = .next (s'.after f s'.buf .completed) ∧
      f.x = f.mx ∧ f.c = f.mc ∧ f.carry = f.mcarry ∧ f.pend = []

/-! ### IVSETUP -/

/-- R152, R153, R154: IVSETUP of an 8-byte IV on a keyed engine, with the IV words in their CAT16 form,
and the frame: the snapshot, PEND, KEYED and the buffer stay. -/
def Obligations.IvsetupDerivesFromTheSnapshot : Prop :=
  ∀ (s : State) (e : Engine) (b : Nat → Byte), s.Ready 8 e → e.keyed = true →
    (∀ j < 8, s.buf.read j = some (b j)) →
    let d0 : Word := wordOfBytes (b 0) (b 1) (b 2) (b 3)
    let d2 : Word := wordOfBytes (b 4) (b 5) (b 6) (b 7)
    let d1 : Word := cat16 (hi16 d2) (hi16 d0)
    let d3 : Word := cat16 (lo16 d2) (lo16 d0)
    let c : Words8 :=
      ⟨e.mc.w0 ^^^ d0, e.mc.w1 ^^^ d1, e.mc.w2 ^^^ d2, e.mc.w3 ^^^ d3,
       e.mc.w4 ^^^ d0, e.mc.w5 ^^^ d1, e.mc.w6 ^^^ d2, e.mc.w7 ^^^ d3⟩
    ∃ e' : Engine,
      exec (.ivsetup 8) s = .next (s.after e' s.buf .completed) ∧
      (∀ w : Engine, w = Engine.rounds 4 { e with x := e.mx, c := c, carry := e.mcarry } →
        e'.x = w.x ∧ e'.c = w.c ∧ e'.carry = w.carry) ∧
      e'.mx = e.mx ∧ e'.mc = e.mc ∧ e'.mcarry = e.mcarry ∧ e'.pend = e.pend ∧ e'.keyed = true ∧
      e'.fault = false ∧ e'.err = 0

/-- R151: the checks of IVSETUP in their order, neither of which looks at the buffer: NotKeyed first, for
every length, and then InvalidIVSize, which changes only STATUS.ERR. -/
def Obligations.IvsetupChecksKeyThenLength : Prop :=
  ∀ (s : State) (e : Engine) (n : Nat), s.Ready n e →
    (e.keyed = false →
      exec (.ivsetup n) s = .next (s.after { e with fault := true } s.buf (.fault .notKeyed))) ∧
    (e.keyed = true → n ≠ 8 →
      exec (.ivsetup n) s = .next (s.after { e with err := 2 } s.buf (.error .invalidIVSize)))

/-- R156, over a run: two completed IVSETUP commands with the same IV on one engine, with any commands to
any engines but KEYSETUP and PURGE between them, leave the same X, C and CARRY. -/
def Obligations.IvsetupIsIdempotentOverRuns : Prop :=
  ∀ (s a z : State) (iv : Transaction) (mid : List Transaction) (ea ez : Engine),
    decode iv.cmd = .ok (.ivsetup 8) →
    (∀ t ∈ mid, decode t.cmd ≠ .ok .purge ∧ ∀ n, decode t.cmd ≠ .ok (.keysetup n)) →
    s.inbox = .issue iv :: (mid.map HostEvent.issue ++ [.issue iv]) →
    Sys2Proof.core.run 1 s = .next a → a.ended = some .completed →
    Sys2Proof.core.run (mid.length + 2) s = .next z → z.ended = some .completed →
    a.engines[iv.engine]? = some ea → z.engines[iv.engine]? = some ez →
    ez.x = ea.x ∧ ez.c = ea.c ∧ ez.carry = ea.carry

/-- R157: after IVSETUP with the all-zero IV the keystream is that of the key without an IV, less its
first 64 bytes. -/
def Obligations.ZeroIvSkipsFourBlocks : Prop :=
  ∀ (s : State) (e : Engine), s.Ready 8 e → e.keyed = true → (∀ j < 8, s.buf.read j = some 0) →
    ∃ f : Engine,
      exec (.ivsetup 8) s = .next (s.after f s.buf .completed) ∧
      ∀ n, (f.withPend []).streamByte n =
        ((e.withCipher e.mx e.mc e.mcarry).withPend []).streamByte (n + 64)

/-! ### PROCESS -/

/-- R200: PROCESS on a keyed engine XORs the buffer with the engine's pending stream and leaves the rest
of that stream; the buffer keeps its length, and a byte index outside it still does not exist. -/
def Obligations.ProcessXorsThePendingStream : Prop :=
  ∀ (s : State) (e : Engine) (n : Nat), s.Ready n e → e.keyed = true → s.buf.Wf →
    ∃ (e' : Engine) (m : Buffer),
      exec (.process n) s = .next (s.after e' m .completed) ∧
      m.len = n ∧
      (∀ j < n, m.read j = (s.buf.read j).map (· ^^^ e.streamByte j)) ∧
      (∀ j, n ≤ j → m.read j = s.buf.read j) ∧
      ∀ j, e'.streamByte j = e.streamByte (n + j)

/-- The frame of PROCESS, from the access matrix of R45: the snapshot, KEYED and FAULT stay, ERR is OK, and
the buffer keeps its length. Every other engine is as before (R258), and so are the parameters and the
host, which the model holds as data (assumptions 11 and 2). It needs nothing of the buffer but its
length. -/
def Obligations.ProcessLeavesTheSetupAlone : Prop :=
  ∀ (s : State) (e : Engine) (n : Nat), s.Ready n e → e.keyed = true →
    ∃ (e' : Engine) (m : Buffer),
      exec (.process n) s = .next (s.after e' m .completed) ∧ m.len = s.buf.len ∧
      e'.mx = e.mx ∧ e'.mc = e.mc ∧ e'.mcarry = e.mcarry ∧ e'.keyed = true ∧ e'.fault = false ∧
      e'.err = 0

/-- R204, R205: the rounds a PROCESS runs and the PEND_LEN it leaves, from the length and the PEND_LEN
before it. -/
def Obligations.ProcessRunsTheRoundsOfItsLength : Prop :=
  ∀ (s : State) (e : Engine) (n : Nat), s.Ready n e → e.keyed = true → s.buf.Wf →
    ∃ (e' : Engine) (m : Buffer),
      exec (.process n) s = .next (s.after e' m .completed) ∧
      (let p := e.pend.length
       let r := if n ≤ p then 0 else (n - p + 15) / 16
       e'.x = (e.rounds r).x ∧ e'.c = (e.rounds r).c ∧ e'.carry = (e.rounds r).carry ∧
       e'.pend.length = if n ≤ p then p - n else (16 - (n - p) % 16) % 16)

/-- R196: the bytes PEND holds are used first, in order, and leave it; with no more bytes than that, no
round runs and PEND keeps its tail. -/
def Obligations.ProcessUsesPendFirst : Prop :=
  ∀ (s : State) (e : Engine) (n : Nat), s.Ready n e → e.keyed = true → s.buf.Wf →
    ∃ (e' : Engine) (m : Buffer),
      exec (.process n) s = .next (s.after e' m .completed) ∧
      (∀ j < min n e.pend.length, m.read j = (s.buf.read j).map (· ^^^ e.pend.getD j 0)) ∧
      (n ≤ e.pend.length → e' = { e with pend := e.pend.drop n, err := 0 })

/-- R197, R198, with nothing pending: 16 bytes take one whole block and leave PEND empty; 1 to 15 bytes
take the front of one block and leave the other `16 - n` bytes of it in PEND. -/
def Obligations.ProcessKeepsTheUnusedTail : Prop :=
  ∀ (s : State) (e : Engine) (n : Nat), s.Ready n e → e.keyed = true → s.buf.Wf → e.pend = [] →
    1 ≤ n → n ≤ 16 →
    ∃ (e' : Engine) (m : Buffer),
      exec (.process n) s = .next (s.after e' m .completed) ∧
      (let ks := extract e.nextState.x
       (∀ j < n, m.read j = (s.buf.read j).map (· ^^^ ks.getD j 0)) ∧
       e'.x = e.nextState.x ∧ e'.c = e.nextState.c ∧ e'.carry = e.nextState.carry ∧
       e'.pend = ks.drop n ∧ e'.pend.length = 16 - n)

/-- R199: a PROCESS of no bytes changes nothing but STATUS.ERR, which becomes OK. -/
def Obligations.ProcessOfNoBytesIsANoOp : Prop :=
  ∀ (s : State) (e : Engine), s.Ready 0 e → e.keyed = true →
    exec (.process 0) s = .next (s.after { e with err := 0 } s.buf .completed)

/-- R201: a message processed in two pieces gives the same bytes and the same engine as the message
processed at once. -/
def Obligations.ProcessInPiecesIsProcessAtOnce : Prop :=
  ∀ (s : State) (e : Engine) (m₁ m₂ : List Byte),
    s.engine? = some e → s.conduct = .exclusive → e.fault = false → e.keyed = true →
    ∃ t₁ t₂ t : State,
      exec (.process m₁.length) { s with buf := .ofBytes m₁ } = .next t₁ ∧
      exec (.process m₂.length) { t₁ with buf := .ofBytes m₂ } = .next t₂ ∧
      exec (.process (m₁ ++ m₂).length) { s with buf := .ofBytes (m₁ ++ m₂) } = .next t ∧
      t.buf.toBytes = t₁.buf.toBytes ++ t₂.buf.toBytes ∧ t.engines = t₂.engines

/-- R203: what PROCESS makes of a message, PROCESS from the same state makes into the message again. -/
def Obligations.ProcessTwiceRestoresTheMessage : Prop :=
  ∀ (s : State) (e : Engine) (msg : List Byte),
    s.engine? = some e → s.conduct = .exclusive → e.fault = false → e.keyed = true →
    ∃ t t' : State,
      exec (.process msg.length) { s with buf := .ofBytes msg } = .next t ∧
      exec (.process msg.length) { s with buf := t.buf } = .next t' ∧
      t'.buf = .ofBytes msg

/-- R202: PEND_LEN is fixed by the bytes processed since the key. Whatever command an engine gets, if
its PEND_LEN was that of the total before, it is that of the total after. -/
def Obligations.PendLengthFollowsTheTotal : Prop :=
  ∀ (s t : State) (i : Instr) (e : Engine) (total : Nat),
    s.engine? = some e → s.buf.Wf → e.pend.length = pendLenOf total → exec i s = .next t →
    ∃ (e' : Engine) (c : CommandEnd),
      t.engine? = some e' ∧ t.ended = some c ∧
      e'.pend.length = pendLenOf (totalAfter s.params total i c)

/-! ### REWIND and PURGE -/

/-- R220, R222: REWIND on a keyed engine restores X, C and CARRY from the snapshot, and empties PEND
exactly when the parameter says so; on one that is not keyed it faults. For both values of the
parameter. -/
def Obligations.RewindRestoresTheSnapshot : Prop :=
  ∀ (s : State) (e : Engine), s.Ready 0 e →
    (e.keyed = true →
      exec .rewind s =
        .next (s.after
          { e with x := e.mx, c := e.mc, carry := e.mcarry,
                   pend := if s.params.rewindClearsPending = true then [] else e.pend, err := 0 }
          s.buf .completed)) ∧
    (e.keyed = false →
      exec .rewind s = .next (s.after { e with fault := true } s.buf (.fault .notKeyed)))

/-- R228 (b): REWIND after REWIND changes nothing. -/
def Obligations.RewindIsIdempotent : Prop :=
  ∀ (s : State) (e : Engine), s.Ready 0 e → e.keyed = true →
    ∃ t, exec .rewind s = .next t ∧ exec .rewind t = .next t

/-- R228 (c): on any engine that still holds the snapshot a KEYSETUP made, REWIND and then IVSETUP leave
the X, C and CARRY that IVSETUP leaves right after that KEYSETUP, and the same keystream to come when
PEND was empty or REWIND empties it. -/
def Obligations.RewindThenIvsetupIsAFreshStart : Prop :=
  ∀ (s u : State) (e g : Engine) (iv : Buffer),
    s.Ready 16 e → u.engine? = some g → u.conduct = .exclusive → g.fault = false →
    g.keyed = true → iv.len = 8 →
    ∃ (f fresh rewound again : Engine),
      exec (.keysetup 16) s = .next (s.after f s.buf .completed) ∧
      exec (.ivsetup 8) { s.after f s.buf .completed with buf := iv } =
        .next ((s.after f s.buf .completed).after fresh iv .completed) ∧
      exec .rewind { u with buf := .empty } =
        .next (u.after rewound .empty .completed) ∧
      exec (.ivsetup 8) { u.after rewound .empty .completed with buf := iv } =
        .next ((u.after rewound .empty .completed).after again iv .completed) ∧
      (g.mx = f.mx → g.mc = f.mc → g.mcarry = f.mcarry →
        again.x = fresh.x ∧ again.c = fresh.c ∧ again.carry = fresh.carry ∧
        (g.pend = [] ∨ u.params.rewindClearsPending = true →
          ∀ n, again.streamByte n = fresh.streamByte n))

/-- R227: PURGE zeroes X, C, CARRY and the snapshot and clears KEYED, keyed or not, and keeps PEND; on an
engine with FAULT set it faults. -/
def Obligations.PurgeZeroesTheState : Prop :=
  ∀ (s : State) (e : Engine),
    (s.Ready 0 e →
      exec .purge s =
        .next (s.after
          { e with x := ⟨0, 0, 0, 0, 0, 0, 0, 0⟩, c := ⟨0, 0, 0, 0, 0, 0, 0, 0⟩, carry := false,
                   mx := ⟨0, 0, 0, 0, 0, 0, 0, 0⟩, mc := ⟨0, 0, 0, 0, 0, 0, 0, 0⟩, mcarry := false,
                   keyed := false, err := 0 }
          s.buf .completed)) ∧
    (s.buf.len = 0 → s.engine? = some e → s.conduct = .exclusive → e.fault = true →
      exec .purge s = .next (s.after e s.buf (.fault .faulted)))

/-- R226: after PURGE, IVSETUP, PROCESS and REWIND of any length fault with NotKeyed. -/
def Obligations.PurgedEngineNeedsANewKey : Prop :=
  ∀ (s : State) (e : Engine), s.Ready 0 e →
    ∃ (t : State) (f : Engine),
      exec .purge s = .next t ∧ t.engine? = some f ∧
      ∀ (i : Instr) (m : Buffer), i.needsKey = true → m.len = i.len →
        exec i { t with buf := m } = .next (t.after { f with fault := true } m (.fault .notKeyed))

/-! ### Faults, errors and their order -/

/-- R66: a transaction whose buffer is not as long as its LEN says is refused, whatever else is wrong. -/
def Obligations.LengthMismatchIsRefused : Prop :=
  ∀ (s : State) (t : Transaction) (rest : List HostEvent),
    s.inbox = .issue t :: rest → t.buf.len ≠ lenField t.cmd →
    step s = .refused .bufferLengthMismatch

/-- R249: overlapping use faults with ConcurrentUse, before anything about the command or the engine. That
the use comes as the `conduct` of the transaction, and that nothing is torn, is the model's choice
(assumption 5). -/
def Obligations.ConcurrentUseFaults : Prop :=
  ∀ (s : State) (t : Transaction) (rest : List HostEvent) (e : Engine),
    s.Issues t rest e → t.conduct ≠ .exclusive →
    step s =
      .next ((s.latch t rest).after { e with fault := true } t.buf (.fault .concurrentUse))

/-- R246: on an engine with FAULT set, every command word, legal or not, faults with Faulted and leaves
the engine and the buffer as they were. -/
def Obligations.FaultedEngineOnlyFaults : Prop :=
  ∀ (s : State) (t : Transaction) (rest : List HostEvent) (e : Engine),
    s.Issues t rest e → t.conduct = .exclusive → e.fault = true →
    step s = .next ((s.latch t rest).after e t.buf (.fault .faulted))

/-- R84, R85, R86: RSV other than 0, OP 0 or 6 to 15, and REWIND (OP 4) or PURGE (OP 5) with a length
are IllegalCommand. -/
def Obligations.ReservedWordsAreIllegal : Prop :=
  ∀ (s : State) (t : Transaction) (rest : List HostEvent) (e : Engine),
    s.Issues t rest e → t.conduct = .exclusive → e.fault = false →
    (rsvField t.cmd ≠ 0 ∨ opField t.cmd = 0 ∨ 6 ≤ (opField t.cmd).toNat ∨
      ((opField t.cmd = 4 ∨ opField t.cmd = 5) ∧ lenField t.cmd ≠ 0)) →
    step s =
      .next ((s.latch t rest).after { e with fault := true } t.buf (.fault .illegalCommand))

/-- R247: without a key, IVSETUP, PROCESS and REWIND fault with NotKeyed, for every length and every
buffer; KEYSETUP and PURGE never do. -/
def Obligations.KeylessUseFaults : Prop :=
  ∀ (s : State) (i : Instr) (e : Engine), s.Ready i.len e → e.keyed = false →
    (i.needsKey = true →
      exec i s = .next (s.after { e with fault := true } s.buf (.fault .notKeyed))) ∧
    (i.needsKey = false → ∃ t, exec i s = .next t ∧ t.ended ≠ some (.fault .notKeyed))

/-- R241, R243, R244: which command reports which error, that no other reports one, and what STATUS.ERR
holds after a command: OK, the error's code, or after a fault its old value. -/
def Obligations.ErrReportsHowTheCommandEnded : Prop :=
  ∀ (s : State) (i : Instr) (e : Engine), s.Ready i.len e →
    ∃ (t : State) (e' : Engine) (c : CommandEnd),
      exec i s = .next t ∧ t.engine? = some e' ∧ t.ended = some c ∧
      (c = .error .invalidKeySize ↔ ∃ n, i = .keysetup n ∧ n ≠ 16) ∧
      (c = .error .invalidIVSize ↔ ∃ n, i = .ivsetup n ∧ n ≠ 8 ∧ e.keyed = true) ∧
      (c = .completed → e'.err = 0) ∧ (c = .error .invalidKeySize → e'.err = 1) ∧
      (c = .error .invalidIVSize → e'.err = 2) ∧ (∀ r, c = .fault r → e'.err = e.err)

/-- R242, R246, R251: an error changes STATUS.ERR and a fault changes FAULT, and neither changes anything
else, the buffer included. -/
def Obligations.ErrorsAndFaultsChangeNothingElse : Prop :=
  ∀ (s t : State) (i : Instr) (e : Engine), s.engine? = some e → exec i s = .next t →
    (∀ k, t.ended = some (.error k) →
      t = s.after { e with err := match k with | .invalidKeySize => 1 | .invalidIVSize => 2 } s.buf
        (.error k)) ∧
    (∀ r, t.ended = some (.fault r) → t = s.after { e with fault := true } s.buf (.fault r))

/-- R244, R240: every transaction with a buffer of its length, to an engine that exists, answers a next
state, whatever the word and whatever the engine holds: no command hangs and none stops the machine.
That an engine which is not there is refused is the model's choice (assumption 7). -/
def Obligations.EveryIssuedCommandAnswers : Prop :=
  ∀ (s : State) (t : Transaction) (rest : List HostEvent) (e : Engine),
    s.Issues t rest e →
    ∃ (e' : Engine) (m : Buffer) (c : CommandEnd),
      step s = .next ((s.latch t rest).after e' m c) ∧ m.len = t.buf.len

/-! ### Who writes what -/

/-- R34: the master snapshot of an engine changes only by a completed KEYSETUP or PURGE of that engine, or
at power-on, which the model takes as an event between commands (assumption 8). -/
def Obligations.SnapshotHasTwoWriters : Prop :=
  ∀ (s t : State) (k : Nat) (e e' : Engine), step s = .next t →
    s.engines[k]? = some e → t.engines[k]? = some e' →
    (e'.mx = e.mx ∧ e'.mc = e.mc ∧ e'.mcarry = e.mcarry) ∨
    (∃ rest, s.inbox = .powerOn :: rest) ∨
    ∃ (u : Transaction) (rest : List HostEvent), s.inbox = .issue u :: rest ∧ u.engine = k ∧
      t.ended = some .completed ∧ (decode u.cmd = .ok (.keysetup 16) ∨ decode u.cmd = .ok .purge)

/-- R39, R46, R270: KEYED is set only by a completed KEYSETUP, and cleared only by a completed PURGE or at
power-on. That power-on is an event between commands is the model's choice (assumption 8). -/
def Obligations.KeyedFollowsKeysetupAndPurge : Prop :=
  ∀ (s t : State) (k : Nat) (e e' : Engine), step s = .next t →
    s.engines[k]? = some e → t.engines[k]? = some e' → e'.keyed ≠ e.keyed →
    ((∃ rest, s.inbox = .powerOn :: rest) ∧ e'.keyed = false) ∨
    ∃ (u : Transaction) (rest : List HostEvent), s.inbox = .issue u :: rest ∧ u.engine = k ∧
      t.ended = some .completed ∧
      ((decode u.cmd = .ok (.keysetup 16) ∧ e'.keyed = true) ∨
        (decode u.cmd = .ok .purge ∧ e'.keyed = false))

/-- R38: PEND changes only by a completed PROCESS, by a completed KEYSETUP and by a REWIND that clears
it, which both empty it, or at power-on, which the model takes as an event between commands
(assumption 8). -/
def Obligations.PendHasFewWriters : Prop :=
  ∀ (s t : State) (k : Nat) (e e' : Engine), step s = .next t →
    s.engines[k]? = some e → t.engines[k]? = some e' → e'.pend ≠ e.pend →
    (∃ rest, s.inbox = .powerOn :: rest) ∨
    ∃ (u : Transaction) (rest : List HostEvent), s.inbox = .issue u :: rest ∧ u.engine = k ∧
      t.ended = some .completed ∧
      ((∃ n, decode u.cmd = .ok (.process n)) ∨
        (decode u.cmd = .ok (.keysetup 16) ∧ e'.pend = []) ∨
        (decode u.cmd = .ok .rewind ∧ s.params.rewindClearsPending = true ∧ e'.pend = []))

/-- R41: FAULT is cleared only by power-on reset, and set only by a command to that engine that faults.
The model takes power-on as an event between commands (assumption 8). -/
def Obligations.OnlyPowerOnClearsFault : Prop :=
  ∀ (s t : State) (k : Nat) (e e' : Engine), step s = .next t →
    s.engines[k]? = some e → t.engines[k]? = some e' →
    (e.fault = true → e'.fault = false → ∃ rest, s.inbox = .powerOn :: rest) ∧
    (e.fault = false → e'.fault = true →
      ∃ (u : Transaction) (rest : List HostEvent) (r : FaultReason),
        s.inbox = .issue u :: rest ∧ u.engine = k ∧ t.ended = some (.fault r))

/-- R62, R45: the only command that changes a byte of the buffer is a completed PROCESS. -/
def Obligations.OnlyProcessWritesTheBuffer : Prop :=
  ∀ (s t : State) (u : Transaction) (rest : List HostEvent),
    s.inbox = .issue u :: rest → step s = .next t → t.buf ≠ u.buf →
    t.ended = some .completed ∧ ∃ n, decode u.cmd = .ok (.process n)

/-! ### The whole machine -/

/-- The invariant holds at power-on with any parameters and any number of engines, and so at reset. What
power-on leaves outside the engines is the model's choice (assumptions 1, 8 and 13). -/
def Obligations.PowerOnMeetsTheInvariant : Prop :=
  State.reset.Inv ∧
  ∀ (p : Params) (n : Nat) (inbox : List HostEvent), 1 ≤ n → inbox.Forall HostEvent.Ok →
    (State.powerOn p n inbox).Inv

/-- R37, R244: every step keeps the invariant: PEND_LEN at most 15, STATUS.ERR never 3, buffers in
canonical form, at least one engine. -/
def Obligations.StepKeepsTheInvariant : Prop :=
  ∀ s t : State, s.Inv → step s = .next t → t.Inv

/-- R42: the bits of STATUS. -/
def Obligations.StatusShowsErrKeyedAndFault : Prop :=
  ∀ (e : Engine) (j : Nat), j < 32 →
    e.status.getLsbD j =
      if j < 2 then e.err.getLsbD j else if j = 8 then e.keyed else if j = 9 then e.fault else false

/-- R46, R270: at power-on PEND is empty, KEYED and FAULT are 0 and STATUS reads 0, on every engine, at
reset and after a power-on event from any state. It says nothing of X, C, CARRY and the snapshot. That
the event resets every engine at once, and keeps the parameters, is the model's choice
(assumption 8). -/
def Obligations.PowerOnResetsTheControlState : Prop :=
  (∀ e ∈ State.reset.engines,
    e.pend = [] ∧ e.keyed = false ∧ e.fault = false ∧ e.status = 0) ∧
  ∀ (s : State) (rest : List HostEvent), s.inbox = .powerOn :: rest →
    ∃ t, step s = .next t ∧ t.engines.length = s.engines.length ∧ t.params = s.params ∧
      t.inbox = rest ∧
      ∀ e ∈ t.engines, e.pend = [] ∧ e.keyed = false ∧ e.fault = false ∧ e.status = 0

/-- R271: with nothing from the host, nothing happens. That the host is a list of events, and that such a
step is a next state, is the model's (assumptions 2 and 9). -/
def Obligations.NothingRunsWithoutTheHost : Prop :=
  ∀ s : State, s.inbox = [] → step s = .next s

/-- R46: what X, C, CARRY and the snapshot of an engine without a key hold is never read. Two states
that differ only there answer a step alike, and differ only there after it. No claim can rest on the
values assumption 1 names. -/
def Obligations.UnsetRegistersAreNeverRead : Prop :=
  ∀ s s' : State, s.SameButUnset s' → Outcome.SameButUnset (step s) (step s')

/-- R258: a command to one engine leaves every other engine as it was. That the number of engines and the
parameters stay, and that the host's later actions are a list of which the command takes the first, is
the model's (assumptions 11 and 2). -/
def Obligations.OtherEnginesAreUntouched : Prop :=
  ∀ (s t : State) (u : Transaction) (rest : List HostEvent),
    s.inbox = .issue u :: rest → step s = .next t →
    t.engines.length = s.engines.length ∧ t.params = s.params ∧ t.inbox = rest ∧
    ∀ j, j ≠ u.engine → t.engines[j]? = s.engines[j]?

/-- R72: commands to different engines are unordered: either order leaves the same engines, and gives
each command the same buffer and the same end. That they come one after another is the model's
(assumption 14). -/
def Obligations.CommandsToDifferentEnginesCommute : Prop :=
  ∀ (s : State) (u v : Transaction) (rest : List HostEvent) (e f : Engine),
    u.engine ≠ v.engine →
    s.engines[u.engine]? = some e → s.engines[v.engine]? = some f →
    u.buf.len = lenField u.cmd → v.buf.len = lenField v.cmd →
    ∃ a b a' b' : State,
      step { s with inbox := .issue u :: .issue v :: rest } = .next a ∧ step a = .next b ∧
      step { s with inbox := .issue v :: .issue u :: rest } = .next a' ∧ step a' = .next b' ∧
      b.engines = b'.engines ∧ a.buf = b'.buf ∧ b.buf = a'.buf ∧ a.ended = b'.ended ∧
      b.ended = a'.ended

/-- R69: no rule depends on `ENGINE_BASE`, which the model holds among its parameters (assumption 11). -/
def Obligations.EngineBaseIsNeverRead : Prop :=
  ∀ (s : State) (b : Nat),
    Outcome.SameButBase b (step s) (step { s with params := { s.params with engineBase := b } })

/-- R273: from any state, a host that issues KEYSETUP with a 16-byte key to an engine without FAULT and
then any IVSETUP, PROCESS and REWIND lines to it, of any lengths, runs safely to the end of its program,
when no other engine had faulted. What a run may end in is the model's reading of R246
(assumption 4). -/
def Obligations.BootOrderRunsSafely : Prop :=
  ∀ (s : State) (k : Nat) (key : List Byte) (ls : List AsmLine),
    s.MayEnd → k < s.engines.length → key.length = 16 →
    (∀ l ∈ ls, l.Wf ∧ l.instr.needsKey = true) →
    State.RunsSafely (s.withProgram k (⟨.keysetup 16, key⟩ :: ls)) (ls.length + 1)

/-- R90: the expansion of `PROCESS*` is a list of lines the assembler takes, whose operands in order are
the message. The chunk lengths are the model's choice (assumption 12), and not said here. -/
def Obligations.LongMessagesExpandToTheirBytes : Prop :=
  ∀ bs : List Byte,
    (∀ l ∈ (Pseudo.processLong bs).expand, l.Wf ∧ ∃ n, l.instr = .process n) ∧
    ((Pseudo.processLong bs).expand.map AsmLine.bytes).flatten = bs

/-! ### Encoding -/

/-- A step runs the decoded command: when the word the host issues decodes to `i`, the step is `exec i`
on the state with the transaction latched; when it decodes to nothing, the step is IllegalCommand there.
The transaction comes from the model's inbox (assumption 2). -/
def Obligations.StepRunsTheDecodedCommand : Prop :=
  ∀ (s : State) (t : Transaction) (rest : List HostEvent), s.inbox = .issue t :: rest →
    (∀ i, decode t.cmd = .ok i → step s = exec i (s.latch t rest)) ∧
    (∀ d, decode t.cmd = .error d → step s = (s.latch t rest).illegalCommand (lenField t.cmd))

/-- Words of R82 and R89, and one of each kind R84 to R86 reserve. -/
def Obligations.ExampleWordsDecode : Prop :=
  decode 0x00001001 = .ok (.keysetup 16) ∧ decode 0x00000802 = .ok (.ivsetup 8) ∧
  decode 0x00000503 = .ok (.process 5) ∧ decode 0x00000003 = .ok (.process 0) ∧
  decode 0xFFFFFF03 = .ok (.process 16777215) ∧ decode 0x00000004 = .ok .rewind ∧
  decode 0x00000005 = .ok .purge ∧ decode 0x00000000 = .error .reservedOp ∧
  decode 0x00000006 = .error .reservedOp ∧ decode 0x00000014 = .error .reservedField ∧
  decode 0x00000104 = .error .nonzeroLength

/-- R87, R81: decoding gives back every well-formed command from its word. -/
def Obligations.DecodeInvertsEncode : Prop :=
  ∀ i : Instr, i.WellFormed → decode (encode i) = .ok i

/-- R87: decoding is unambiguous: a word that decodes to a command is the one word of that command, which
is well formed. -/
def Obligations.EncodeInvertsDecode : Prop :=
  ∀ (w : Word) (i : Instr), decode w = .ok i → i.WellFormed ∧ encode i = w
end

