-- ==== Sys2Proof/Laws/Buffer.lean ====
section
/-! SUPPORT. The operand buffer: every operation keeps the canonical form, a read after a write gives
what was written, and equal contents are equal buffers. -/

namespace Sys2Proof.Machine

theorem lookupCell_eq_zero {cells : List Host.Cell} {a : Nat} (h : ∀ p ∈ cells, p.1 ≠ a) :
    lookupCell cells a = 0#8 := by
  induction cells with
  | nil => rfl
  | cons p rest ih =>
    obtain ⟨b, v⟩ := p
    have hb : a ≠ b := fun e => h (b, v) (by simp) e.symm
    simp only [lookupCell, if_neg hb]
    exact ih fun q hq => h q (by simp [hq])

theorem lookupCell_of_mem {cells : List Host.Cell} (hs : cells.Pairwise fun p q => p.1 < q.1)
    {a : Nat} {v : Byte} (h : (a, v) ∈ cells) : lookupCell cells a = v := by
  induction cells with
  | nil => simp at h
  | cons p rest ih =>
    obtain ⟨b, w⟩ := p
    rw [List.pairwise_cons] at hs
    rcases List.mem_cons.mp h with h | h
    · cases h
      simp [lookupCell]
    · have : b < a := hs.1 _ h
      simp only [lookupCell, if_neg (by omega : ¬ a = b)]
      exact ih hs.2 h

/-- A store changes the byte at its index and no other. -/
theorem lookupCell_storeCell {cells : List Host.Cell} (hs : cells.Pairwise fun p q => p.1 < q.1)
    (a a' : Nat) (v : Byte) :
    lookupCell (storeCell cells a v) a' = if a' = a then v else lookupCell cells a' := by
  induction cells with
  | nil =>
    by_cases hv : v = 0#8
    · simp [storeCell, lookupCell, hv]
    · simp [storeCell, lookupCell, hv]
  | cons p rest ih =>
    obtain ⟨b, w⟩ := p
    rw [List.pairwise_cons] at hs
    have hrest : ∀ c ≤ b, lookupCell rest c = 0#8 := fun c hc =>
      lookupCell_eq_zero fun q hq => by have := hs.1 q hq; simp only at this; omega
    simp only [storeCell]
    split
    · rename_i hab
      by_cases hv : v = 0#8
      · by_cases ha : a' = a
        · subst ha
          simp [hv, lookupCell, hrest a' (by omega), show a' ≠ b by omega]
        · simp [hv, ha]
      · simp [hv, lookupCell]
    · split
      · rename_i _ hab
        subst hab
        by_cases hv : v = 0#8
        · by_cases ha : a' = a
          · subst ha
            simp [hv, hrest]
          · simp [hv, ha, lookupCell]
        · by_cases ha : a' = a <;> simp [hv, ha, lookupCell]
      · rename_i _ hab
        simp only [lookupCell, ih hs.2]
        by_cases ha : a' = b
        · simp [ha, show b ≠ a from fun h => hab h.symm]
        · simp [ha]

/-- Every cell after a store is the stored one or an old one, and none is 00. -/
theorem mem_storeCell {cells : List Host.Cell} {a : Nat} {v : Byte} {p : Host.Cell}
    (h : p ∈ storeCell cells a v) : (p = (a, v) ∧ v ≠ 0#8) ∨ p ∈ cells := by
  induction cells with
  | nil =>
    by_cases hv : v = 0#8 <;> simp_all [storeCell]
  | cons q rest ih =>
    obtain ⟨b, w⟩ := q
    simp only [storeCell] at h
    split at h
    · by_cases hv : v = 0#8 <;> simp_all
    · split at h
      · by_cases hv : v = 0#8 <;> simp_all
        tauto
      · rcases List.mem_cons.mp h with h | h
        · exact .inr (by simp [h])
        · rcases ih h with h | h
          · exact .inl h
          · exact .inr (by simp [h])

theorem storeCell_sorted {cells : List Host.Cell} (hs : cells.Pairwise fun p q => p.1 < q.1)
    (a : Nat) (v : Byte) : (storeCell cells a v).Pairwise fun p q => p.1 < q.1 := by
  induction cells with
  | nil =>
    by_cases hv : v = 0#8 <;> simp [storeCell, hv]
  | cons q rest ih =>
    obtain ⟨b, w⟩ := q
    have hs' := hs
    rw [List.pairwise_cons] at hs
    simp only [storeCell]
    split
    · rename_i hab
      by_cases hv : v = 0#8
      · simpa [hv] using hs'
      · simp only [hv, if_false, List.pairwise_cons]
        refine ⟨fun p hp => ?_, hs⟩
        rcases List.mem_cons.mp hp with hp | hp
        · simpa [hp] using hab
        · exact lt_trans hab (hs.1 p hp)
    · split
      · rename_i _ hab
        subst hab
        by_cases hv : v = 0#8
        · simpa [hv] using hs.2
        · rw [if_neg hv, List.pairwise_cons]
          exact ⟨hs.1, hs.2⟩
      · rename_i hlt hne
        rw [List.pairwise_cons]
        refine ⟨fun p hp => ?_, ih hs.2⟩
        rcases mem_storeCell hp with ⟨hp, _⟩ | hp
        · subst hp; simp only; omega
        · exact hs.1 p hp

/-- `MemWrite` keeps the canonical form and the length. -/
theorem Buffer.write_wf {m m' : Buffer} {i : Nat} {v : Byte} (hm : m.Wf) (h : m.write i v = some m') :
    m'.Wf ∧ m'.len = m.len := by
  simp only [Buffer.write] at h
  split at h
  · rename_i hi
    cases h
    refine ⟨⟨storeCell_sorted hm.1 i v, fun p hp => ?_⟩, rfl⟩
    rcases mem_storeCell hp with ⟨hp, hv⟩ | hp
    · subst hp; exact ⟨hi, hv⟩
    · exact hm.2 p hp
  · cases h

/-- `MemWrite` inside the buffer succeeds; then every byte but the written one reads as before, and that
one reads as written. -/
theorem Buffer.write_spec {m : Buffer} (hm : m.Wf) {i : Nat} (hi : i < m.len) (v : Byte) :
    ∃ m', m.write i v = some m' ∧ m'.Wf ∧ m'.len = m.len ∧
      ∀ j, m'.read j = if j = i then some v else m.read j := by
  have hw : m.write i v = some { m with cells := storeCell m.cells i v } := by
    simp [Buffer.write, hi]
  obtain ⟨hwf, hlen⟩ := Buffer.write_wf hm hw
  refine ⟨_, hw, hwf, hlen, fun j => ?_⟩
  simp only [Buffer.read, lookupCell_storeCell hm.1]
  by_cases hj : j = i
  · simp [hj, hi]
  · simp [hj]

theorem Buffer.read_of_lt {m : Buffer} {i : Nat} (hi : i < m.len) :
    m.read i = some (lookupCell m.cells i) := by
  simp [Buffer.read, hi]

theorem Buffer.read_of_ge {m : Buffer} {i : Nat} (hi : m.len ≤ i) : m.read i = none := by
  simp [Buffer.read, show ¬ i < m.len by omega]

/-- The bytes of `ks` XORed in from index `i` on: it succeeds inside the buffer, keeps the form and the
length, and changes exactly the bytes `i` to `i + ks.length - 1`. -/
theorem Buffer.xorBytes_spec (ks : List Byte) {m : Buffer} (hm : m.Wf) {i : Nat}
    (hi : i + ks.length ≤ m.len) :
    ∃ m', m.xorBytes i ks = some m' ∧ m'.Wf ∧ m'.len = m.len ∧
      ∀ j, m'.read j =
        if i ≤ j ∧ j < i + ks.length then (m.read j).map (· ^^^ ks.getD (j - i) 0) else m.read j := by
  induction ks generalizing m i with
  | nil =>
    refine ⟨m, rfl, hm, rfl, fun j => ?_⟩
    rw [if_neg (by simp only [List.length_nil]; omega)]
  | cons k ks ih =>
    simp only [List.length_cons] at hi
    have hlt : i < m.len := by omega
    obtain ⟨m₁, hw, hwf, hlen, hread⟩ := Buffer.write_spec hm hlt (lookupCell m.cells i ^^^ k)
    obtain ⟨m', hx, hwf', hlen', hread'⟩ := ih hwf (i := i + 1) (by omega)
    refine ⟨m', ?_, hwf', hlen'.trans hlen, fun j => ?_⟩
    · simp only [Buffer.xorBytes, Buffer.read_of_lt hlt, hw, hx]
    · rw [hread', hread]
      by_cases hj : j = i
      · subst hj
        simp [Buffer.read_of_lt hlt]
      · by_cases hin : i + 1 ≤ j ∧ j < i + 1 + ks.length
        · have h1 : j - i = (j - (i + 1)) + 1 := by omega
          simp only [if_pos hin, if_neg hj, List.length_cons]
          rw [if_pos (by omega), h1, List.getD_cons_succ]
        · simp only [if_neg hin, if_neg hj, List.length_cons]
          rw [if_neg (by omega)]

/-- The XOR loop stays inside the buffer even where the buffer is not in canonical form. -/
theorem Buffer.xorBytes_isSome (ks : List Byte) {m : Buffer} {i : Nat} (hi : i + ks.length ≤ m.len) :
    ∃ m', m.xorBytes i ks = some m' ∧ m'.len = m.len := by
  induction ks generalizing m i with
  | nil => exact ⟨m, rfl, rfl⟩
  | cons k ks ih =>
    simp only [List.length_cons] at hi
    have hlt : i < m.len := by omega
    obtain ⟨m', hx, hlen⟩ :=
      ih (m := { m with cells := storeCell m.cells i (lookupCell m.cells i ^^^ k) }) (i := i + 1)
        (by simp only; omega)
    exact ⟨m', by simp only [Buffer.xorBytes, Buffer.read_of_lt hlt, Buffer.write, if_pos hlt, hx], hlen⟩

/-- Buffers in canonical form with the same length and the same bytes are the same data. -/
theorem Buffer.ext_read {m m' : Buffer} (hm : m.Wf) (hm' : m'.Wf) (hlen : m.len = m'.len)
    (h : ∀ j, m.read j = m'.read j) : m = m' := by
  have hlook : ∀ j, lookupCell m.cells j = lookupCell m'.cells j := fun j => by
    by_cases hj : j < m.len
    · have := h j
      rw [Buffer.read_of_lt hj, Buffer.read_of_lt (hlen ▸ hj)] at this
      exact Option.some.inj this
    · have hout : ∀ p ∈ m.cells, p.1 ≠ j := fun p hp e => hj (by have := (hm.2 p hp).1; omega)
      have hout' : ∀ p ∈ m'.cells, p.1 ≠ j := fun p hp e => hj (by have := (hm'.2 p hp).1; omega)
      rw [lookupCell_eq_zero hout, lookupCell_eq_zero hout']
  have hmem : ∀ p, p ∈ m.cells ↔ p ∈ m'.cells := by
    have key : ∀ {a b : Buffer}, a.Wf → b.Wf → (∀ j, lookupCell a.cells j = lookupCell b.cells j) →
        ∀ p ∈ a.cells, p ∈ b.cells := by
      intro a b ha hb hab p hp
      obtain ⟨i, v⟩ := p
      by_contra hnot
      have hv : lookupCell b.cells i = v := by rw [← hab, lookupCell_of_mem ha.1 hp]
      by_cases hex : ∃ w, (i, w) ∈ b.cells
      · obtain ⟨w, hw⟩ := hex
        rw [lookupCell_of_mem hb.1 hw] at hv
        exact hnot (hv ▸ hw)
      · rw [lookupCell_eq_zero fun q hq e => hex ⟨q.2, by rw [← e]; exact hq⟩] at hv
        exact (ha.2 _ hp).2 hv.symm
    exact fun p => ⟨key hm hm' hlook p, key hm' hm (fun j => (hlook j).symm) p⟩
  have hcells : m.cells = m'.cells := by
    apply List.Perm.eq_of_pairwise (le := fun p q : Host.Cell => p.1 < q.1)
      (fun a b _ _ hab hba => absurd hab (by omega)) hm.1 hm'.1
    rw [List.perm_ext_iff_of_nodup]
    · exact hmem
    · exact hm.1.imp fun {a b} hab e => by simp [e] at hab
    · exact hm'.1.imp fun {a b} hab e => by simp [e] at hab
  cases m; cases m'; simp_all

theorem mem_cellsFrom {i : Nat} {bs : List Byte} {p : Host.Cell} (h : p ∈ cellsFrom i bs) :
    i ≤ p.1 ∧ p.1 < i + bs.length ∧ p.2 ≠ 0#8 := by
  induction bs generalizing i with
  | nil => simp [cellsFrom] at h
  | cons b bs ih =>
    simp only [cellsFrom] at h
    split at h
    · obtain ⟨h1, h2, h3⟩ := ih h
      simp only [List.length_cons]
      exact ⟨by omega, by omega, h3⟩
    · rename_i hb
      rcases List.mem_cons.mp h with h | h
      · subst h
        simp only [List.length_cons]
        exact ⟨le_refl _, by omega, hb⟩
      · obtain ⟨h1, h2, h3⟩ := ih h
        simp only [List.length_cons]
        exact ⟨by omega, by omega, h3⟩

theorem cellsFrom_sorted (i : Nat) (bs : List Byte) :
    (cellsFrom i bs).Pairwise fun p q => p.1 < q.1 := by
  induction bs generalizing i with
  | nil => simp [cellsFrom]
  | cons b bs ih =>
    simp only [cellsFrom]
    split
    · exact ih _
    · rw [List.pairwise_cons]
      exact ⟨fun p hp => by have := (mem_cellsFrom hp).1; simp only; omega, ih _⟩

theorem lookupCell_cellsFrom (i : Nat) (bs : List Byte) (j : Nat) :
    lookupCell (cellsFrom i bs) (i + j) = bs.getD j 0 := by
  induction bs generalizing i j with
  | nil => simp [cellsFrom, lookupCell]
  | cons b bs ih =>
    have hshift : ∀ k, i + (k + 1) = (i + 1) + k := fun k => by omega
    cases j with
    | zero =>
      simp only [cellsFrom, Nat.add_zero]
      split
      · rename_i hb
        rw [lookupCell_eq_zero fun p hp => by have := (mem_cellsFrom hp).1; omega]
        simp [hb]
      · simp [lookupCell]
    | succ k =>
      rw [List.getD_cons_succ, ← ih (i + 1) k, hshift]
      simp only [cellsFrom]
      split
      · rfl
      · simp only [lookupCell]
        rw [if_neg (by omega)]

/-- A buffer made of bytes is in canonical form, and reads those bytes. -/
theorem Buffer.ofBytes_wf (bs : List Byte) : (Buffer.ofBytes bs).Wf :=
  ⟨cellsFrom_sorted 0 bs, fun _ hp => by
    have := mem_cellsFrom hp
    exact ⟨by simpa [Buffer.ofBytes] using this.2.1, this.2.2⟩⟩

@[simp] theorem Buffer.len_ofBytes (bs : List Byte) : (Buffer.ofBytes bs).len = bs.length := rfl

theorem Buffer.read_ofBytes (bs : List Byte) (j : Nat) : (Buffer.ofBytes bs).read j = bs[j]? := by
  by_cases hj : j < bs.length
  · have := lookupCell_cellsFrom 0 bs j
    rw [Nat.zero_add] at this
    rw [Buffer.read_of_lt (by simpa using hj)]
    simp [Buffer.ofBytes, this, List.getD, List.getElem?_eq_getElem hj]
  · rw [Buffer.read_of_ge (by simpa using Nat.le_of_not_lt hj)]
    simp [Nat.le_of_not_lt hj]

@[simp] theorem Buffer.len_zeros (n : Nat) : (Buffer.zeros n).len = n := rfl

theorem Buffer.zeros_wf (n : Nat) : (Buffer.zeros n).Wf := ⟨.nil, by simp [Buffer.zeros]⟩

theorem Buffer.empty_wf : Buffer.empty.Wf := ⟨.nil, by simp [Buffer.empty]⟩

theorem Buffer.read_zeros {n j : Nat} (hj : j < n) : (Buffer.zeros n).read j = some 0 := by
  simp [Buffer.read, Buffer.zeros, lookupCell, hj]

/-- `LE32(BUF, o)` inside the buffer is the word of its four bytes. -/
theorem Buffer.le32_spec {m : Buffer} {o : Nat} {b0 b1 b2 b3 : Byte} (h0 : m.read o = some b0)
    (h1 : m.read (o + 1) = some b1) (h2 : m.read (o + 2) = some b2) (h3 : m.read (o + 3) = some b3) :
    m.le32 o = some (wordOfBytes b0 b1 b2 b3) := by
  simp [Buffer.le32, h0, h1, h2, h3]

theorem Buffer.le32_isSome {m : Buffer} {o : Nat} (h : o + 3 < m.len) : ∃ w, m.le32 o = some w :=
  ⟨_, Buffer.le32_spec (Buffer.read_of_lt (by omega)) (Buffer.read_of_lt (by omega))
    (Buffer.read_of_lt (by omega)) (Buffer.read_of_lt h)⟩

/-- A buffer of at least 16 bytes holds four key words. -/
theorem Buffer.keyWords_isSome {m : Buffer} (h : 16 ≤ m.len) : ∃ k, m.keyWords = some k := by
  obtain ⟨k0, h0⟩ := Buffer.le32_isSome (m := m) (o := 0) (by omega)
  obtain ⟨k1, h1⟩ := Buffer.le32_isSome (m := m) (o := 4) (by omega)
  obtain ⟨k2, h2⟩ := Buffer.le32_isSome (m := m) (o := 8) (by omega)
  obtain ⟨k3, h3⟩ := Buffer.le32_isSome (m := m) (o := 12) (by omega)
  exact ⟨⟨k0, k1, k2, k3⟩, by simp [Buffer.keyWords, h0, h1, h2, h3]⟩

/-- A buffer of at least 8 bytes holds the IV words. -/
theorem Buffer.ivWords_isSome {m : Buffer} (h : 8 ≤ m.len) : ∃ d, m.ivWords = some d := by
  obtain ⟨d0, h0⟩ := Buffer.le32_isSome (m := m) (o := 0) (by omega)
  obtain ⟨d2, h2⟩ := Buffer.le32_isSome (m := m) (o := 4) (by omega)
  exact ⟨ivWordsOf d0 d2, by simp [Buffer.ivWords, h0, h2]⟩

end Sys2Proof.Machine
end

