-- ==== Sys2Proof/Laws/Engine.lean ====
section
/-! SUPPORT. What each register write of an engine leaves in each register: one lemma per field per
update, so that no later proof unfolds a record update. -/

namespace Sys2Proof.Machine

section
variable (e : Engine)

@[simp] theorem Engine.withCipher_x (x c : Words8) (k : Bool) : (e.withCipher x c k).x = x := (rfl)
@[simp] theorem Engine.withCipher_c (x c : Words8) (k : Bool) : (e.withCipher x c k).c = c := (rfl)
@[simp] theorem Engine.withCipher_carry (x c : Words8) (k : Bool) : (e.withCipher x c k).carry = k := (rfl)
@[simp] theorem Engine.withCipher_mx (x c : Words8) (k : Bool) : (e.withCipher x c k).mx = e.mx := (rfl)
@[simp] theorem Engine.withCipher_mc (x c : Words8) (k : Bool) : (e.withCipher x c k).mc = e.mc := (rfl)
@[simp] theorem Engine.withCipher_mcarry (x c : Words8) (k : Bool) : (e.withCipher x c k).mcarry = e.mcarry := (rfl)
@[simp] theorem Engine.withCipher_pend (x c : Words8) (k : Bool) : (e.withCipher x c k).pend = e.pend := (rfl)
@[simp] theorem Engine.withCipher_keyed (x c : Words8) (k : Bool) : (e.withCipher x c k).keyed = e.keyed := (rfl)
@[simp] theorem Engine.withCipher_fault (x c : Words8) (k : Bool) : (e.withCipher x c k).fault = e.fault := (rfl)
@[simp] theorem Engine.withCipher_err (x c : Words8) (k : Bool) : (e.withCipher x c k).err = e.err := (rfl)

@[simp] theorem Engine.withSnapshot_x (x c : Words8) (k : Bool) : (e.withSnapshot x c k).x = e.x := (rfl)
@[simp] theorem Engine.withSnapshot_c (x c : Words8) (k : Bool) : (e.withSnapshot x c k).c = e.c := (rfl)
@[simp] theorem Engine.withSnapshot_carry (x c : Words8) (k : Bool) : (e.withSnapshot x c k).carry = e.carry := (rfl)
@[simp] theorem Engine.withSnapshot_mx (x c : Words8) (k : Bool) : (e.withSnapshot x c k).mx = x := (rfl)
@[simp] theorem Engine.withSnapshot_mc (x c : Words8) (k : Bool) : (e.withSnapshot x c k).mc = c := (rfl)
@[simp] theorem Engine.withSnapshot_mcarry (x c : Words8) (k : Bool) : (e.withSnapshot x c k).mcarry = k := (rfl)
@[simp] theorem Engine.withSnapshot_pend (x c : Words8) (k : Bool) : (e.withSnapshot x c k).pend = e.pend := (rfl)
@[simp] theorem Engine.withSnapshot_keyed (x c : Words8) (k : Bool) : (e.withSnapshot x c k).keyed = e.keyed := (rfl)
@[simp] theorem Engine.withSnapshot_fault (x c : Words8) (k : Bool) : (e.withSnapshot x c k).fault = e.fault := (rfl)
@[simp] theorem Engine.withSnapshot_err (x c : Words8) (k : Bool) : (e.withSnapshot x c k).err = e.err := (rfl)

@[simp] theorem Engine.withPend_x (p : List Byte) : (e.withPend p).x = e.x := (rfl)
@[simp] theorem Engine.withPend_c (p : List Byte) : (e.withPend p).c = e.c := (rfl)
@[simp] theorem Engine.withPend_carry (p : List Byte) : (e.withPend p).carry = e.carry := (rfl)
@[simp] theorem Engine.withPend_mx (p : List Byte) : (e.withPend p).mx = e.mx := (rfl)
@[simp] theorem Engine.withPend_mc (p : List Byte) : (e.withPend p).mc = e.mc := (rfl)
@[simp] theorem Engine.withPend_mcarry (p : List Byte) : (e.withPend p).mcarry = e.mcarry := (rfl)
@[simp] theorem Engine.withPend_pend (p : List Byte) : (e.withPend p).pend = p := (rfl)
@[simp] theorem Engine.withPend_keyed (p : List Byte) : (e.withPend p).keyed = e.keyed := (rfl)
@[simp] theorem Engine.withPend_fault (p : List Byte) : (e.withPend p).fault = e.fault := (rfl)
@[simp] theorem Engine.withPend_err (p : List Byte) : (e.withPend p).err = e.err := (rfl)

@[simp] theorem Engine.withKeyed_x (b : Bool) : (e.withKeyed b).x = e.x := (rfl)
@[simp] theorem Engine.withKeyed_c (b : Bool) : (e.withKeyed b).c = e.c := (rfl)
@[simp] theorem Engine.withKeyed_carry (b : Bool) : (e.withKeyed b).carry = e.carry := (rfl)
@[simp] theorem Engine.withKeyed_mx (b : Bool) : (e.withKeyed b).mx = e.mx := (rfl)
@[simp] theorem Engine.withKeyed_mc (b : Bool) : (e.withKeyed b).mc = e.mc := (rfl)
@[simp] theorem Engine.withKeyed_mcarry (b : Bool) : (e.withKeyed b).mcarry = e.mcarry := (rfl)
@[simp] theorem Engine.withKeyed_pend (b : Bool) : (e.withKeyed b).pend = e.pend := (rfl)
@[simp] theorem Engine.withKeyed_keyed (b : Bool) : (e.withKeyed b).keyed = b := (rfl)
@[simp] theorem Engine.withKeyed_fault (b : Bool) : (e.withKeyed b).fault = e.fault := (rfl)
@[simp] theorem Engine.withKeyed_err (b : Bool) : (e.withKeyed b).err = e.err := (rfl)

@[simp] theorem Engine.withErr_x (r : BitVec 2) : (e.withErr r).x = e.x := (rfl)
@[simp] theorem Engine.withErr_c (r : BitVec 2) : (e.withErr r).c = e.c := (rfl)
@[simp] theorem Engine.withErr_carry (r : BitVec 2) : (e.withErr r).carry = e.carry := (rfl)
@[simp] theorem Engine.withErr_mx (r : BitVec 2) : (e.withErr r).mx = e.mx := (rfl)
@[simp] theorem Engine.withErr_mc (r : BitVec 2) : (e.withErr r).mc = e.mc := (rfl)
@[simp] theorem Engine.withErr_mcarry (r : BitVec 2) : (e.withErr r).mcarry = e.mcarry := (rfl)
@[simp] theorem Engine.withErr_pend (r : BitVec 2) : (e.withErr r).pend = e.pend := (rfl)
@[simp] theorem Engine.withErr_keyed (r : BitVec 2) : (e.withErr r).keyed = e.keyed := (rfl)
@[simp] theorem Engine.withErr_fault (r : BitVec 2) : (e.withErr r).fault = e.fault := (rfl)
@[simp] theorem Engine.withErr_err (r : BitVec 2) : (e.withErr r).err = r := (rfl)

@[simp] theorem Engine.withFault_x : (e.withFault).x = e.x := (rfl)
@[simp] theorem Engine.withFault_c : (e.withFault).c = e.c := (rfl)
@[simp] theorem Engine.withFault_carry : (e.withFault).carry = e.carry := (rfl)
@[simp] theorem Engine.withFault_mx : (e.withFault).mx = e.mx := (rfl)
@[simp] theorem Engine.withFault_mc : (e.withFault).mc = e.mc := (rfl)
@[simp] theorem Engine.withFault_mcarry : (e.withFault).mcarry = e.mcarry := (rfl)
@[simp] theorem Engine.withFault_pend : (e.withFault).pend = e.pend := (rfl)
@[simp] theorem Engine.withFault_keyed : (e.withFault).keyed = e.keyed := (rfl)
@[simp] theorem Engine.withFault_fault : (e.withFault).fault = true := (rfl)
@[simp] theorem Engine.withFault_err : (e.withFault).err = e.err := (rfl)

end

end Sys2Proof.Machine
end

