-- ==== Sys2Proof/Laws/Words.lean ====
section
/-! SUPPORT. Register files read back what was written to them, and the word unit in integers. -/

namespace Sys2Proof

@[simp] theorem Words8.get_ofFn (f : Fin 8 → Word) (i : Fin 8) : (Words8.ofFn f).get i = f i := by
  fin_cases i <;> rfl

@[simp] theorem Words8.get_fill (w : Word) (i : Fin 8) : (Words8.fill w).get i = w := by
  fin_cases i <;> rfl

@[simp] theorem Words8.ofFn_get (v : Words8) : Words8.ofFn v.get = v := rfl

/-- Two register files with the same eight registers are the same file. -/
theorem Words8.ext_get {v w : Words8} (h : ∀ i, v.get i = w.get i) : v = w := by
  rw [← Words8.ofFn_get v, ← Words8.ofFn_get w, funext h]

namespace Machine

theorem add32_toNat (a b : Word) : (add32 a b).toNat = (a.toNat + b.toNat) % 2 ^ 32 := by
  simp [add32]

theorem add32c_toNat (a k : Word) (cin : Bool) :
    (add32c a k cin).toNat = (a.toNat + k.toNat + cin.toNat) % 2 ^ 32 := by
  simp [add32c]

theorem mul32_toNat (a b : Word) : (mul32 a b).toNat = (a.toNat * b.toNat) % 2 ^ 32 := by
  simp [mul32]

theorem add32_eq_add (a b : Word) : add32 a b = a + b := by
  apply BitVec.eq_of_toNat_eq
  simp [add32]

theorem shr_toNat (a : Word) (n : Nat) : (shr a n).toNat = a.toNat / 2 ^ n := by
  simp [shr, Nat.shiftRight_eq_div_pow]

theorem shl_toNat (a : Word) (n : Nat) : (shl a n).toNat = (a.toNat * 2 ^ n) % 2 ^ 32 := by
  simp [shl, Nat.shiftLeft_eq]

theorem hi16_toNat (a : Word) : (hi16 a).toNat = a.toNat / 2 ^ 16 := shr_toNat a 16

theorem lo16_toNat (a : Word) : (lo16 a).toNat = a.toNat % 2 ^ 16 := by
  have : (0xFFFF : Word).toNat = 2 ^ 16 - 1 := rfl
  simp only [lo16, and32, BitVec.toNat_and, this, Nat.and_two_pow_sub_one_eq_mod]

theorem wrap_iff (new old : Word) : wrap new old = true ↔ new.toNat < old.toNat := by
  simp [wrap]

end Machine

end Sys2Proof
end

