-- ==== Sys2Proof/Laws/NextState.lean ====
section
/-! SUPPORT. Rounds: what they leave alone, and how they add up. -/

namespace Sys2Proof.Machine

/-- A round writes X, C and CARRY and nothing else (R179). -/
theorem Engine.nextState_eq (e : Engine) :
    e.nextState =
      e.withCipher (stateUpdate (gValues e.x (counterUpdate e.c e.carry))) (counterUpdate e.c e.carry)
        (carryInto e.c e.carry 8) := by
  rw [Engine.nextState]

@[simp] theorem Engine.nextState_mx (e : Engine) : e.nextState.mx = e.mx := by
  rw [Engine.nextState_eq, Engine.withCipher_mx]
@[simp] theorem Engine.nextState_mc (e : Engine) : e.nextState.mc = e.mc := by
  rw [Engine.nextState_eq, Engine.withCipher_mc]
@[simp] theorem Engine.nextState_mcarry (e : Engine) : e.nextState.mcarry = e.mcarry := by
  rw [Engine.nextState_eq, Engine.withCipher_mcarry]
@[simp] theorem Engine.nextState_pend (e : Engine) : e.nextState.pend = e.pend := by
  rw [Engine.nextState_eq, Engine.withCipher_pend]
@[simp] theorem Engine.nextState_keyed (e : Engine) : e.nextState.keyed = e.keyed := by
  rw [Engine.nextState_eq, Engine.withCipher_keyed]
@[simp] theorem Engine.nextState_fault (e : Engine) : e.nextState.fault = e.fault := by
  rw [Engine.nextState_eq, Engine.withCipher_fault]
@[simp] theorem Engine.nextState_err (e : Engine) : e.nextState.err = e.err := by
  rw [Engine.nextState_eq, Engine.withCipher_err]

@[simp] theorem Engine.rounds_zero (e : Engine) : e.rounds 0 = e := (rfl)

/-- The last round is run last. -/
theorem Engine.rounds_succ' (n : Nat) (e : Engine) : e.rounds (n + 1) = (e.rounds n).nextState := (rfl)

/-- The first round may be run first. -/
theorem Engine.rounds_succ (n : Nat) (e : Engine) : e.rounds (n + 1) = e.nextState.rounds n := by
  induction n with
  | zero => rw [Engine.rounds_succ', Engine.rounds_zero, Engine.rounds_zero]
  | succ n ih => rw [Engine.rounds_succ', ih, Engine.rounds_succ']

theorem Engine.rounds_add (m n : Nat) (e : Engine) : e.rounds (m + n) = (e.rounds m).rounds n := by
  induction n with
  | zero => rw [Nat.add_zero, Engine.rounds_zero]
  | succ n ih => rw [Nat.add_succ, Engine.rounds_succ', ih, Engine.rounds_succ']

/-- Rounds read X, C and CARRY only (R179): the rest of the engine goes along unread. -/
theorem Engine.rounds_congr (n : Nat) {e e' : Engine} (hx : e.x = e'.x) (hc : e.c = e'.c)
    (hk : e.carry = e'.carry) :
    (e.rounds n).x = (e'.rounds n).x ∧ (e.rounds n).c = (e'.rounds n).c ∧
      (e.rounds n).carry = (e'.rounds n).carry := by
  induction n generalizing e e' with
  | zero => exact ⟨hx, hc, hk⟩
  | succ n ih =>
    rw [Engine.rounds_succ, Engine.rounds_succ]
    apply ih <;>
      simp only [Engine.nextState_eq, Engine.withCipher_x, Engine.withCipher_c, Engine.withCipher_carry,
        hx, hc, hk]

@[simp] theorem Engine.rounds_mx (n : Nat) (e : Engine) : (e.rounds n).mx = e.mx := by
  induction n generalizing e with
  | zero => rw [Engine.rounds_zero]
  | succ n ih => rw [Engine.rounds_succ, ih, Engine.nextState_mx]
@[simp] theorem Engine.rounds_mc (n : Nat) (e : Engine) : (e.rounds n).mc = e.mc := by
  induction n generalizing e with
  | zero => rw [Engine.rounds_zero]
  | succ n ih => rw [Engine.rounds_succ, ih, Engine.nextState_mc]
@[simp] theorem Engine.rounds_mcarry (n : Nat) (e : Engine) : (e.rounds n).mcarry = e.mcarry := by
  induction n generalizing e with
  | zero => rw [Engine.rounds_zero]
  | succ n ih => rw [Engine.rounds_succ, ih, Engine.nextState_mcarry]
@[simp] theorem Engine.rounds_pend (n : Nat) (e : Engine) : (e.rounds n).pend = e.pend := by
  induction n generalizing e with
  | zero => rw [Engine.rounds_zero]
  | succ n ih => rw [Engine.rounds_succ, ih, Engine.nextState_pend]
@[simp] theorem Engine.rounds_keyed (n : Nat) (e : Engine) : (e.rounds n).keyed = e.keyed := by
  induction n generalizing e with
  | zero => rw [Engine.rounds_zero]
  | succ n ih => rw [Engine.rounds_succ, ih, Engine.nextState_keyed]
@[simp] theorem Engine.rounds_fault (n : Nat) (e : Engine) : (e.rounds n).fault = e.fault := by
  induction n generalizing e with
  | zero => rw [Engine.rounds_zero]
  | succ n ih => rw [Engine.rounds_succ, ih, Engine.nextState_fault]
@[simp] theorem Engine.rounds_err (n : Nat) (e : Engine) : (e.rounds n).err = e.err := by
  induction n generalizing e with
  | zero => rw [Engine.rounds_zero]
  | succ n ih => rw [Engine.rounds_succ, ih, Engine.nextState_err]

/-- The engine after `n` rounds is the engine before with X, C and CARRY replaced. -/
theorem Engine.rounds_eq (n : Nat) (e : Engine) :
    e.rounds n = e.withCipher (e.rounds n).x (e.rounds n).c (e.rounds n).carry := by
  have h : ∀ f : Engine, f.mx = e.mx → f.mc = e.mc → f.mcarry = e.mcarry → f.pend = e.pend →
      f.keyed = e.keyed → f.fault = e.fault → f.err = e.err → f = e.withCipher f.x f.c f.carry := by
    intro f h1 h2 h3 h4 h5 h6 h7
    cases f
    cases e
    simp only at h1 h2 h3 h4 h5 h6 h7
    subst h1 h2 h3 h4 h5 h6 h7
    rfl
  exact h _ (rounds_mx n e) (rounds_mc n e) (rounds_mcarry n e) (rounds_pend n e) (rounds_keyed n e)
    (rounds_fault n e) (rounds_err n e)

section
variable (e : Engine) (k d : Words4)

@[simp] theorem Engine.couple_x : e.couple.x = e.x := (rfl)
@[simp] theorem Engine.couple_c : e.couple.c = coupledCounter e.x e.c := (rfl)
@[simp] theorem Engine.couple_carry : e.couple.carry = e.carry := (rfl)
@[simp] theorem Engine.couple_mx : e.couple.mx = e.mx := (rfl)
@[simp] theorem Engine.couple_mc : e.couple.mc = e.mc := (rfl)
@[simp] theorem Engine.couple_mcarry : e.couple.mcarry = e.mcarry := (rfl)
@[simp] theorem Engine.couple_pend : e.couple.pend = e.pend := (rfl)
@[simp] theorem Engine.couple_keyed : e.couple.keyed = e.keyed := (rfl)
@[simp] theorem Engine.couple_fault : e.couple.fault = e.fault := (rfl)
@[simp] theorem Engine.couple_err : e.couple.err = e.err := (rfl)

@[simp] theorem Engine.takeSnapshot_x : e.takeSnapshot.x = e.x := (rfl)
@[simp] theorem Engine.takeSnapshot_c : e.takeSnapshot.c = e.c := (rfl)
@[simp] theorem Engine.takeSnapshot_carry : e.takeSnapshot.carry = e.carry := (rfl)
@[simp] theorem Engine.takeSnapshot_mx : e.takeSnapshot.mx = e.x := (rfl)
@[simp] theorem Engine.takeSnapshot_mc : e.takeSnapshot.mc = e.c := (rfl)
@[simp] theorem Engine.takeSnapshot_mcarry : e.takeSnapshot.mcarry = e.carry := (rfl)
@[simp] theorem Engine.takeSnapshot_pend : e.takeSnapshot.pend = [] := (rfl)
@[simp] theorem Engine.takeSnapshot_keyed : e.takeSnapshot.keyed = true := (rfl)
@[simp] theorem Engine.takeSnapshot_fault : e.takeSnapshot.fault = e.fault := (rfl)
@[simp] theorem Engine.takeSnapshot_err : e.takeSnapshot.err = e.err := (rfl)

/-- Right after the key schedule the state is the snapshot (R138). -/
theorem Engine.keySchedule_snapshot : (e.keySchedule k).mx = (e.keySchedule k).x ∧
    (e.keySchedule k).mc = (e.keySchedule k).c ∧ (e.keySchedule k).mcarry = (e.keySchedule k).carry := by
  rw [Engine.keySchedule]
  exact ⟨rfl, rfl, rfl⟩

@[simp] theorem Engine.keySchedule_pend : (e.keySchedule k).pend = [] := by
  rw [Engine.keySchedule, Engine.takeSnapshot_pend]
@[simp] theorem Engine.keySchedule_keyed : (e.keySchedule k).keyed = true := by
  rw [Engine.keySchedule, Engine.takeSnapshot_keyed]
@[simp] theorem Engine.keySchedule_fault : (e.keySchedule k).fault = e.fault := by
  rw [Engine.keySchedule, Engine.takeSnapshot_fault, Engine.couple_fault, Engine.rounds_fault,
    Engine.withCipher_fault]
@[simp] theorem Engine.keySchedule_err : (e.keySchedule k).err = e.err := by
  rw [Engine.keySchedule, Engine.takeSnapshot_err, Engine.couple_err, Engine.rounds_err,
    Engine.withCipher_err]

@[simp] theorem Engine.ivDerive_mx : (e.ivDerive d).mx = e.mx := by
  rw [Engine.ivDerive, Engine.rounds_mx, Engine.withCipher_mx]
@[simp] theorem Engine.ivDerive_mc : (e.ivDerive d).mc = e.mc := by
  rw [Engine.ivDerive, Engine.rounds_mc, Engine.withCipher_mc]
@[simp] theorem Engine.ivDerive_mcarry : (e.ivDerive d).mcarry = e.mcarry := by
  rw [Engine.ivDerive, Engine.rounds_mcarry, Engine.withCipher_mcarry]
@[simp] theorem Engine.ivDerive_pend : (e.ivDerive d).pend = e.pend := by
  rw [Engine.ivDerive, Engine.rounds_pend, Engine.withCipher_pend]
@[simp] theorem Engine.ivDerive_keyed : (e.ivDerive d).keyed = e.keyed := by
  rw [Engine.ivDerive, Engine.rounds_keyed, Engine.withCipher_keyed]
@[simp] theorem Engine.ivDerive_fault : (e.ivDerive d).fault = e.fault := by
  rw [Engine.ivDerive, Engine.rounds_fault, Engine.withCipher_fault]
@[simp] theorem Engine.ivDerive_err : (e.ivDerive d).err = e.err := by
  rw [Engine.ivDerive, Engine.rounds_err, Engine.withCipher_err]

end

end Sys2Proof.Machine
end

