-- ==== Sys2Proof/Laws/Keystream.lean ====
section
/-! SUPPORT. EXTRACT gives 16 bytes, and everything the PROCESS loop can do, said once. -/

namespace Sys2Proof.Machine

@[simp] theorem length_extract (x : Words8) : (extract x).length = 16 := by
  simp only [extract, lebytes, List.length_append, List.length_cons, List.length_nil]

/-- PEND takes no part in a round. -/
theorem Engine.rounds_withPend (n : Nat) (e : Engine) (p : List Byte) :
    (e.withPend p).rounds n = (e.rounds n).withPend p := by
  induction n with
  | zero => rw [Engine.rounds_zero, Engine.rounds_zero]
  | succ n ih =>
    have hnext : ∀ f : Engine, (f.withPend p).nextState = f.nextState.withPend p := fun f => by
      rw [Engine.nextState_eq, Engine.nextState_eq f, Engine.withPend_x, Engine.withPend_c,
        Engine.withPend_carry]
      generalize stateUpdate _ = x
      generalize counterUpdate _ _ = c
      generalize carryInto _ _ _ = k
      rfl
    rw [Engine.rounds_succ', Engine.rounds_succ', ih, hnext]

/-- PEND takes no part in the blocks to come. -/
theorem extract_rounds_pend (n : Nat) (e : Engine) (p : List Byte) :
    extract ((e.withPend p).rounds n).x = extract (e.rounds n).x := by
  rw [(Engine.rounds_congr n (e := e.withPend p) (e' := e) (e.withPend_x p) (e.withPend_c p)
    (e.withPend_carry p)).1]

/-! ### One turn of the loop -/

theorem processBlocks_done {len i : Nat} (h : len ≤ i) (fuel : Nat) (e : Engine) (m : Buffer) :
    processBlocks len fuel e m i = some (e, m) := by
  cases fuel with
  | zero => rw [processBlocks]
  | succ n => rw [processBlocks, if_pos h]

theorem processBlocks_full {len i : Nat} (h : i + 16 ≤ len) (fuel : Nat) (e : Engine) {m m' : Buffer}
    (hx : m.xorBytes i (extract e.nextState.x) = some m') :
    processBlocks len (fuel + 1) e m i = processBlocks len fuel e.nextState m' (i + 16) := by
  rw [processBlocks, if_neg (by omega)]
  simp only [blockBytes]
  rw [if_pos (by omega)]
  simp only [hx]

theorem processBlocks_last {len i : Nat} (h : i < len) (h' : len < i + 16) (fuel : Nat) (e : Engine)
    {m m' : Buffer} (hx : m.xorBytes i ((extract e.nextState.x).take (len - i)) = some m') :
    processBlocks len (fuel + 1) e m i =
      some (e.nextState.withPend ((extract e.nextState.x).drop (len - i)), m') := by
  rw [processBlocks, if_neg (by omega)]
  simp only [blockBytes]
  rw [if_neg (by omega)]
  simp only [hx]

/-! ### The whole loop -/

/-- The loop of PROCESS from index `i`, with `len - i = 16 q + r` bytes left: `q` full blocks, and one
more round when `r` is not 0, whose unused bytes become PEND. It writes the bytes `i` to `len - 1`
and no other. -/
theorem processBlocks_spec (len : Nat) {fuel : Nat} {e : Engine} {m : Buffer} {i : Nat} (hm : m.Wf)
    (hlen : len ≤ m.len) (hfuel : len - i ≤ fuel) :
    ∃ e' m', processBlocks len fuel e m i = some (e', m') ∧ m'.Wf ∧ m'.len = m.len ∧
      (∀ j, m'.read j =
        if i ≤ j ∧ j < len then
          (m.read j).map (· ^^^ (extract (e.rounds ((j - i) / 16 + 1)).x).getD ((j - i) % 16) 0)
        else m.read j) ∧
      e' =
        if (len - i) % 16 = 0 then e.rounds ((len - i) / 16)
        else
          (e.rounds ((len - i) / 16 + 1)).withPend
            ((extract (e.rounds ((len - i) / 16 + 1)).x).drop ((len - i) % 16)) := by
  induction fuel generalizing e m i with
  | zero =>
    have h0 : len - i = 0 := by omega
    refine ⟨e, m, processBlocks_done (by omega) _ _ _, hm, rfl, fun j => by rw [if_neg (by omega)], ?_⟩
    rw [if_pos (by omega), h0, Nat.zero_div, Engine.rounds_zero]
  | succ fuel ih =>
    by_cases hi : len ≤ i
    · have h0 : len - i = 0 := by omega
      refine ⟨e, m, processBlocks_done hi _ _ _, hm, rfl, fun j => by rw [if_neg (by omega)], ?_⟩
      rw [if_pos (by omega), h0, Nat.zero_div, Engine.rounds_zero]
    by_cases hfull : i + 16 ≤ len
    · obtain ⟨m₁, hx, hwf, hl, hr⟩ :=
        Buffer.xorBytes_spec (extract e.nextState.x) hm (i := i) (by rw [length_extract]; omega)
      obtain ⟨e', m', hb, hwf', hl', hr', he'⟩ :=
        ih (e := e.nextState) (m := m₁) (i := i + 16) hwf (by omega) (by omega)
      refine ⟨e', m', by rw [processBlocks_full hfull _ _ hx, hb], hwf', hl'.trans hl, fun j => ?_, ?_⟩
      · rw [hr', hr, length_extract]
        by_cases h1 : i + 16 ≤ j ∧ j < len
        · rw [if_pos h1, if_neg (by omega), if_pos (by omega), ← Engine.rounds_succ,
            show (j - (i + 16)) / 16 + 1 = (j - i) / 16 by omega,
            show (j - (i + 16)) % 16 = (j - i) % 16 by omega]
        · rw [if_neg h1]
          by_cases h2 : i ≤ j ∧ j < i + 16
          · rw [if_pos h2, if_pos (by omega), show (j - i) / 16 = 0 by omega,
              show (j - i) % 16 = j - i by omega, Engine.rounds_succ, Engine.rounds_zero]
          · rw [if_neg h2, if_neg (by omega)]
      · rw [he', ← Engine.rounds_succ, ← Engine.rounds_succ,
          show (len - (i + 16)) / 16 + 1 = (len - i) / 16 by omega,
          show (len - (i + 16)) % 16 = (len - i) % 16 by omega]
    · obtain ⟨m₁, hx, hwf, hl, hr⟩ :=
        Buffer.xorBytes_spec ((extract e.nextState.x).take (len - i)) hm (i := i)
          (by rw [List.length_take, length_extract]; omega)
      refine ⟨_, m₁, processBlocks_last (by omega) (by omega) _ _ hx, hwf, hl, fun j => ?_, ?_⟩
      · rw [hr, List.length_take, length_extract, Nat.min_eq_left (by omega)]
        by_cases h1 : i ≤ j ∧ j < len
        · rw [if_pos (by omega), if_pos h1, show (j - i) / 16 = 0 by omega,
            show (j - i) % 16 = j - i by omega, Engine.rounds_succ, Engine.rounds_zero]
          simp only [List.getD, List.getElem?_take, if_pos (show j - i < len - i by omega)]
        · rw [if_neg (by omega), if_neg h1]
      · rw [if_neg (by omega), show (len - i) / 16 = 0 by omega,
          show (len - i) % 16 = len - i by omega, Engine.rounds_succ, Engine.rounds_zero]

/-- `e'` differs from `e` at most in X, C, CARRY and PEND. -/
structure Engine.KeepsSetup (e e' : Engine) : Prop where
  mx     : e'.mx = e.mx
  mc     : e'.mc = e.mc
  mcarry : e'.mcarry = e.mcarry
  keyed  : e'.keyed = e.keyed
  fault  : e'.fault = e.fault
  err    : e'.err = e.err

theorem Engine.KeepsSetup.refl (e : Engine) : e.KeepsSetup e := ⟨rfl, rfl, rfl, rfl, rfl, rfl⟩

theorem Engine.KeepsSetup.trans {e e' e'' : Engine} (h : e.KeepsSetup e') (h' : e'.KeepsSetup e'') :
    e.KeepsSetup e'' :=
  ⟨h'.mx.trans h.mx, h'.mc.trans h.mc, h'.mcarry.trans h.mcarry, h'.keyed.trans h.keyed,
    h'.fault.trans h.fault, h'.err.trans h.err⟩

theorem Engine.keepsSetup_nextState (e : Engine) : e.KeepsSetup e.nextState :=
  ⟨e.nextState_mx, e.nextState_mc, e.nextState_mcarry, e.nextState_keyed, e.nextState_fault,
    e.nextState_err⟩

theorem Engine.keepsSetup_withPend (e : Engine) (p : List Byte) : e.KeepsSetup (e.withPend p) :=
  ⟨e.withPend_mx p, e.withPend_mc p, e.withPend_mcarry p, e.withPend_keyed p, e.withPend_fault p,
    e.withPend_err p⟩

/-- The loop never leaves the buffer, and keeps its length, whatever form the buffer is in; it changes
no register but X, C, CARRY and PEND. -/
theorem processBlocks_frame (len : Nat) {fuel : Nat} {e : Engine} {m : Buffer} {i : Nat}
    (hlen : len ≤ m.len) :
    ∃ e' m', processBlocks len fuel e m i = some (e', m') ∧ m'.len = m.len ∧ e.KeepsSetup e' := by
  induction fuel generalizing e m i with
  | zero => exact ⟨e, m, by rw [processBlocks], rfl, .refl e⟩
  | succ fuel ih =>
    by_cases hi : len ≤ i
    · exact ⟨e, m, processBlocks_done hi _ _ _, rfl, .refl e⟩
    by_cases hfull : i + 16 ≤ len
    · obtain ⟨m₁, hx, hl⟩ :=
        Buffer.xorBytes_isSome (extract e.nextState.x) (m := m) (i := i) (by rw [length_extract]; omega)
      obtain ⟨e', m', hb, hl', he'⟩ := ih (e := e.nextState) (m := m₁) (i := i + 16) (by omega)
      exact ⟨e', m', by rw [processBlocks_full hfull _ _ hx, hb], hl'.trans hl,
        e.keepsSetup_nextState.trans he'⟩
    · obtain ⟨m₁, hx, hl⟩ :=
        Buffer.xorBytes_isSome ((extract e.nextState.x).take (len - i)) (m := m) (i := i)
          (by rw [List.length_take, length_extract]; omega)
      exact ⟨_, m₁, processBlocks_last (by omega) (by omega) _ _ hx, hl,
        e.keepsSetup_nextState.trans (e.nextState.keepsSetup_withPend _)⟩

/-- The body of PROCESS on a buffer of its length: it never leaves the buffer, keeps its length, and
changes no register but X, C, CARRY and PEND. -/
theorem Engine.process_frame (e : Engine) {m : Buffer} {len : Nat} (h : m.len = len) :
    ∃ e' m', e.process m len = some (e', m') ∧ m'.len = len ∧ e.KeepsSetup e' := by
  obtain ⟨m₁, hx, hl⟩ :=
    Buffer.xorBytes_isSome (e.pend.take (min len e.pend.length)) (m := m) (i := 0)
      (by rw [List.length_take]; omega)
  obtain ⟨e', m', hb, hl', he'⟩ :=
    processBlocks_frame len (fuel := len - min len e.pend.length)
      (e := e.withPend (e.pend.drop (min len e.pend.length))) (m := m₁)
      (i := min len e.pend.length) (by omega)
  exact ⟨e', m', by simp only [Engine.process, hx, hb], by omega,
    (e.keepsSetup_withPend _).trans he'⟩

/-- Everything the body of PROCESS does, on a buffer in canonical form and of its length: phase 1 uses
up the first `min len p` bytes of PEND, `p` its length, and the loop the blocks after it. -/
theorem Engine.process_spec (e : Engine) {m : Buffer} {len : Nat} (hm : m.Wf) (h : m.len = len) :
    ∃ e' m', e.process m len = some (e', m') ∧ m'.Wf ∧ m'.len = len ∧
      (∀ j, m'.read j =
        if j < min len e.pend.length then (m.read j).map (· ^^^ e.pend.getD j 0)
        else if j < len then
          (m.read j).map (· ^^^
            (extract (e.rounds ((j - e.pend.length) / 16 + 1)).x).getD ((j - e.pend.length) % 16) 0)
        else m.read j) ∧
      e' =
        if (len - e.pend.length) % 16 = 0 then
          (e.rounds ((len - e.pend.length) / 16)).withPend (e.pend.drop len)
        else
          (e.rounds ((len - e.pend.length) / 16 + 1)).withPend
            ((extract (e.rounds ((len - e.pend.length) / 16 + 1)).x).drop ((len - e.pend.length) % 16)) := by
  obtain ⟨m₁, hx, hwf, hl, hr⟩ :=
    Buffer.xorBytes_spec (e.pend.take (min len e.pend.length)) hm (i := 0)
      (by rw [List.length_take]; omega)
  obtain ⟨e', m', hb, hwf', hl', hr', he'⟩ :=
    processBlocks_spec len (fuel := len - min len e.pend.length)
      (e := e.withPend (e.pend.drop (min len e.pend.length))) (m := m₁)
      (i := min len e.pend.length) hwf (by omega) (le_refl _)
  refine ⟨e', m', by simp only [Engine.process, hx, hb], hwf', by omega, fun j => ?_, ?_⟩
  · rw [hr', hr, extract_rounds_pend, List.length_take]
    by_cases h1 : j < min len e.pend.length
    · rw [if_neg (by omega), if_pos (by omega), if_pos h1]
      simp only [List.getD, List.getElem?_take, Nat.sub_zero, if_pos h1]
    · rw [if_neg (show ¬ (0 ≤ j ∧ j < 0 + min (min len e.pend.length) e.pend.length) by omega),
        if_neg h1]
      by_cases h2 : j < len
      · rw [if_pos (by omega), if_pos h2, Nat.min_eq_right (by omega)]
      · rw [if_neg (by omega), if_neg h2]
  · have hsub : len - min len e.pend.length = len - e.pend.length := by omega
    have hdrop : e.pend.drop (min len e.pend.length) = e.pend.drop len := by
      rcases Nat.le_total len e.pend.length with h1 | h1
      · rw [Nat.min_eq_left h1]
      · rw [Nat.min_eq_right h1, List.drop_length, List.drop_eq_nil_of_le h1]
    have htwice : ∀ (f : Engine) (p q : List Byte), (f.withPend p).withPend q = f.withPend q :=
      fun _ _ _ => rfl
    rw [he', hsub, hdrop, Engine.rounds_withPend, Engine.rounds_withPend, Engine.withPend_x, htwice]

end Sys2Proof.Machine
end

