-- ==== Sys2Proof/Laws/State.lean ====
section
/-! SUPPORT. What each update of the state leaves in each field: one lemma per field per update, all by
unfolding, so that no later proof unfolds a record update. -/

namespace Sys2Proof.Machine

@[simp] theorem State.putEngine_params (s : State) (e : Engine) : (s.putEngine e).params = s.params := (rfl)
@[simp] theorem State.putEngine_engines (s : State) (e : Engine) :
    (s.putEngine e).engines = s.engines.set s.target e := (rfl)
@[simp] theorem State.putEngine_target (s : State) (e : Engine) : (s.putEngine e).target = s.target := (rfl)
@[simp] theorem State.putEngine_cmd (s : State) (e : Engine) : (s.putEngine e).cmd = s.cmd := (rfl)
@[simp] theorem State.putEngine_buf (s : State) (e : Engine) : (s.putEngine e).buf = s.buf := (rfl)
@[simp] theorem State.putEngine_conduct (s : State) (e : Engine) : (s.putEngine e).conduct = s.conduct := (rfl)
@[simp] theorem State.putEngine_ended (s : State) (e : Engine) : (s.putEngine e).ended = s.ended := (rfl)
@[simp] theorem State.putEngine_inbox (s : State) (e : Engine) : (s.putEngine e).inbox = s.inbox := (rfl)

section
variable (s : State) (t : Transaction) (r : List HostEvent)
@[simp] theorem State.latch_params : (s.latch t r).params = s.params := (rfl)
@[simp] theorem State.latch_engines : (s.latch t r).engines = s.engines := (rfl)
@[simp] theorem State.latch_target : (s.latch t r).target = t.engine := (rfl)
@[simp] theorem State.latch_cmd : (s.latch t r).cmd = t.cmd := (rfl)
@[simp] theorem State.latch_buf : (s.latch t r).buf = t.buf := (rfl)
@[simp] theorem State.latch_conduct : (s.latch t r).conduct = t.conduct := (rfl)
@[simp] theorem State.latch_ended : (s.latch t r).ended = s.ended := (rfl)
@[simp] theorem State.latch_inbox : (s.latch t r).inbox = r := (rfl)
@[simp] theorem State.latch_engine? : (s.latch t r).engine? = s.engines[t.engine]? := (rfl)

@[simp] theorem State.powerOnReset_params : (s.powerOnReset r).params = s.params := (rfl)
@[simp] theorem State.powerOnReset_engines :
    (s.powerOnReset r).engines = List.replicate s.engines.length Engine.reset := (rfl)
@[simp] theorem State.powerOnReset_target : (s.powerOnReset r).target = 0 := (rfl)
@[simp] theorem State.powerOnReset_cmd : (s.powerOnReset r).cmd = 0 := (rfl)
@[simp] theorem State.powerOnReset_buf : (s.powerOnReset r).buf = .empty := (rfl)
@[simp] theorem State.powerOnReset_conduct : (s.powerOnReset r).conduct = .exclusive := (rfl)
@[simp] theorem State.powerOnReset_ended : (s.powerOnReset r).ended = none := (rfl)
@[simp] theorem State.powerOnReset_inbox : (s.powerOnReset r).inbox = r := (rfl)
end

section
variable (s : State) (e : Engine) (m : Buffer) (c : CommandEnd)
@[simp] theorem State.after_params : (s.after e m c).params = s.params := (rfl)
@[simp] theorem State.after_engines : (s.after e m c).engines = s.engines.set s.target e := (rfl)
@[simp] theorem State.after_target : (s.after e m c).target = s.target := (rfl)
@[simp] theorem State.after_cmd : (s.after e m c).cmd = s.cmd := (rfl)
@[simp] theorem State.after_buf : (s.after e m c).buf = m := (rfl)
@[simp] theorem State.after_conduct : (s.after e m c).conduct = s.conduct := (rfl)
@[simp] theorem State.after_ended : (s.after e m c).ended = some c := (rfl)
@[simp] theorem State.after_inbox : (s.after e m c).inbox = s.inbox := (rfl)
end

section
variable (s : State) (n w : Nat)
@[simp] theorem State.withFetchWord_params : (s.withFetchWord n w).params = s.params := (rfl)
@[simp] theorem State.withFetchWord_engines : (s.withFetchWord n w).engines = s.engines := (rfl)
@[simp] theorem State.withFetchWord_target : (s.withFetchWord n w).target = s.target := (rfl)
@[simp] theorem State.withFetchWord_cmd : (s.withFetchWord n w).cmd = s.cmd := (rfl)
@[simp] theorem State.withFetchWord_buf : (s.withFetchWord n w).buf = s.buf := (rfl)
@[simp] theorem State.withFetchWord_conduct : (s.withFetchWord n w).conduct = s.conduct := (rfl)
@[simp] theorem State.withFetchWord_ended : (s.withFetchWord n w).ended = s.ended := (rfl)
end

/-- The engine a command leaves is the engine its state then holds. -/
theorem State.after_engine? {s : State} {e₀ : Engine} (h : s.engine? = some e₀) (e : Engine)
    (m : Buffer) (c : CommandEnd) : (s.after e m c).engine? = some e := by
  have hlt : s.target < s.engines.length := by
    simp only [State.engine?] at h
    exact (List.getElem?_eq_some_iff.mp h).1
  simp [State.engine?, hlt]

/-- Every other engine is left alone. -/
theorem State.after_other (s : State) (e : Engine) (m : Buffer) (c : CommandEnd) {j : Nat}
    (h : j ≠ s.target) : (s.after e m c).engines[j]? = s.engines[j]? := by
  simp [List.getElem?_set_ne h.symm]

/-- Writing back the engine that is there changes nothing. -/
theorem State.set_engine_self {s : State} {e : Engine} (h : s.engine? = some e) :
    s.engines.set s.target e = s.engines := by
  simp only [State.engine?] at h
  obtain ⟨hlt, rfl⟩ := List.getElem?_eq_some_iff.mp h
  simp

end Sys2Proof.Machine
end

