-- ==== Sys2Proof/Laws/Ops.lean ====
section
/-! SUPPORT. How a command begins and ends, said once: the three ways to end in `after` form, what the
gate does, and every way a gated command can come out. -/

namespace Sys2Proof.Machine

theorem State.complete_eq (s : State) (e : Engine) :
    s.complete e = .next (s.after (e.withErr 0) s.buf .completed) := rfl

/-- PROCESS completes with another buffer. -/
theorem State.complete_buf_eq (s : State) (e : Engine) (m : Buffer) :
    State.complete { s with buf := m } e = .next (s.after (e.withErr 0) m .completed) := rfl

theorem State.failWith_eq (s : State) (e : Engine) (k : ErrorKind) :
    s.failWith e k = .next (s.after (e.withErr k.code) s.buf (.error k)) := rfl

theorem State.raise_eq (s : State) (e : Engine) (r : FaultReason) :
    s.raise e r = .next (s.after e.withFault s.buf (.fault r)) := rfl

/-- A command that is ready passes the gate. -/
theorem State.gate_ready {s : State} {len : Nat} {e : Engine} (h : s.Ready len e) (k : Engine → Outcome) :
    s.gate len k = k e := by
  obtain ⟨hlen, he, hc, hf⟩ := h
  simp [State.gate, hlen, he, hc, hf]

/-- Everything the gate can do: refuse, raise ConcurrentUse or Faulted, or go on with a ready engine. -/
theorem State.gate_cases (s : State) (len : Nat) (k : Engine → Outcome) :
    (s.buf.len ≠ len ∧ s.gate len k = .refused .bufferLengthMismatch) ∨
    (s.buf.len = len ∧ s.engine? = none ∧ s.gate len k = .refused .noSuchEngine) ∨
    (∃ e, s.buf.len = len ∧ s.engine? = some e ∧ s.conduct ≠ .exclusive ∧
      s.gate len k = s.raise e .concurrentUse) ∨
    (∃ e, s.buf.len = len ∧ s.engine? = some e ∧ s.conduct = .exclusive ∧ e.fault = true ∧
      s.gate len k = s.raise e .faulted) ∨
    (∃ e, s.Ready len e ∧ s.gate len k = k e) := by
  by_cases hlen : s.buf.len = len
  · cases he : s.engine? with
    | none => exact .inr (.inl ⟨hlen, rfl, by simp [State.gate, hlen, he]⟩)
    | some e =>
      by_cases hc : s.conduct = .exclusive
      · cases hf : e.fault with
        | true =>
          exact .inr (.inr (.inr (.inl ⟨e, hlen, rfl, hc, hf, by simp [State.gate, hlen, he, hc, hf]⟩)))
        | false =>
          have hr : s.Ready len e := ⟨hlen, he, hc, hf⟩
          exact .inr (.inr (.inr (.inr ⟨e, hr, State.gate_ready hr k⟩)))
      · exact .inr (.inr (.inl ⟨e, hlen, rfl, hc, by simp [State.gate, hlen, he, hc]⟩))
  · exact .inl ⟨hlen, by simp [State.gate, hlen]⟩

@[simp] theorem State.requireKeyed_true {s : State} {e : Engine} (h : e.keyed = true) (o : Outcome) :
    s.requireKeyed e o = o := by
  simp [State.requireKeyed, h]

@[simp] theorem State.requireKeyed_false {s : State} {e : Engine} (h : e.keyed = false) (o : Outcome) :
    s.requireKeyed e o = s.raise e .notKeyed := by
  simp [State.requireKeyed, h]

end Sys2Proof.Machine
end

