-- ==== Sys2Proof/Laws/Commands.lean ====
section
/-! SUPPORT. Everything a command and a step can do, said once. -/

namespace Sys2Proof.Machine

/-- Every way a command `i` on engine `e` of state `s` can end: the engine, the buffer and the end it
leaves, with the condition under which it does (R240, R250). -/
inductive Effect (s : State) (i : Instr) (e : Engine) : Engine → Buffer → CommandEnd → Prop
  | concurrent : s.conduct ≠ .exclusive → Effect s i e e.withFault s.buf (.fault .concurrentUse)
  | faulted : s.conduct = .exclusive → e.fault = true → Effect s i e e.withFault s.buf (.fault .faulted)
  | notKeyed : s.Ready i.len e → i.needsKey = true → e.keyed = false →
      Effect s i e e.withFault s.buf (.fault .notKeyed)
  | keySize (n : Nat) : s.Ready i.len e → i = .keysetup n → n ≠ 16 →
      Effect s i e (e.withErr ErrorKind.invalidKeySize.code) s.buf (.error .invalidKeySize)
  | ivSize (n : Nat) : s.Ready i.len e → i = .ivsetup n → e.keyed = true → n ≠ 8 →
      Effect s i e (e.withErr ErrorKind.invalidIVSize.code) s.buf (.error .invalidIVSize)
  | keyed (k : Words4) : s.Ready i.len e → i = .keysetup 16 → s.buf.keyWords = some k →
      Effect s i e ((e.keySchedule k).withErr 0) s.buf .completed
  | ivDerived (d : Words4) : s.Ready i.len e → i = .ivsetup 8 → e.keyed = true →
      s.buf.ivWords = some d → Effect s i e ((e.ivDerive d).withErr 0) s.buf .completed
  | processed (n : Nat) (e' : Engine) (m : Buffer) : s.Ready i.len e → i = .process n →
      e.keyed = true → e.process s.buf n = some (e', m) → Effect s i e (e'.withErr 0) m .completed
  | rewound : s.Ready i.len e → i = .rewind → e.keyed = true →
      Effect s i e ((e.rewind s.params).withErr 0) s.buf .completed
  | purged : s.Ready i.len e → i = .purge → Effect s i e (e.purge.withErr 0) s.buf .completed

theorem execKeysetup_ready {s : State} {n : Nat} {e : Engine} (h : s.Ready n e) :
    ∃ e' m c, execKeysetup n s = .next (s.after e' m c) ∧ Effect s (.keysetup n) e e' m c := by
  by_cases hn : n = 16
  · subst hn
    obtain ⟨k, hk⟩ := Buffer.keyWords_isSome (m := s.buf) (by have := h.1; omega)
    refine ⟨_, _, _, ?_, .keyed k h rfl hk⟩
    simp only [execKeysetup, State.gate_ready h, keyBytes, ne_eq, not_true_eq_false, if_false, hk,
      State.complete_eq]
  · refine ⟨_, _, _, ?_, .keySize n h rfl hn⟩
    simp only [execKeysetup, State.gate_ready h, keyBytes, ne_eq, hn, not_false_eq_true, if_true,
      State.failWith_eq]

theorem execIvsetup_ready {s : State} {n : Nat} {e : Engine} (h : s.Ready n e) :
    ∃ e' m c, execIvsetup n s = .next (s.after e' m c) ∧ Effect s (.ivsetup n) e e' m c := by
  cases hk : e.keyed with
  | false =>
    exact ⟨_, _, _, by simp only [execIvsetup, State.gate_ready h, State.requireKeyed_false hk,
      State.raise_eq], .notKeyed h rfl hk⟩
  | true =>
    by_cases hn : n = 8
    · subst hn
      obtain ⟨d, hd⟩ := Buffer.ivWords_isSome (m := s.buf) (by have := h.1; omega)
      refine ⟨_, _, _, ?_, .ivDerived d h rfl hk hd⟩
      simp only [execIvsetup, State.gate_ready h, State.requireKeyed_true hk, ivBytes, ne_eq,
        not_true_eq_false, if_false, hd, State.complete_eq]
    · refine ⟨_, _, _, ?_, .ivSize n h rfl hk hn⟩
      simp only [execIvsetup, State.gate_ready h, State.requireKeyed_true hk, ivBytes, ne_eq, hn,
        not_false_eq_true, if_true, State.failWith_eq]

theorem execProcess_ready {s : State} {n : Nat} {e : Engine} (h : s.Ready n e) :
    ∃ e' m c, execProcess n s = .next (s.after e' m c) ∧ Effect s (.process n) e e' m c := by
  cases hk : e.keyed with
  | false =>
    exact ⟨_, _, _, by simp only [execProcess, State.gate_ready h, State.requireKeyed_false hk,
      State.raise_eq], .notKeyed h rfl hk⟩
  | true =>
    obtain ⟨e', m, hp, _⟩ := e.process_frame h.1
    refine ⟨_, _, _, ?_, .processed n e' m h rfl hk hp⟩
    simp only [execProcess, State.gate_ready h, State.requireKeyed_true hk, hp, State.complete_buf_eq]

theorem execRewind_ready {s : State} {e : Engine} (h : s.Ready 0 e) :
    ∃ e' m c, execRewind s = .next (s.after e' m c) ∧ Effect s .rewind e e' m c := by
  cases hk : e.keyed with
  | false =>
    exact ⟨_, _, _, by simp only [execRewind, State.gate_ready h, State.requireKeyed_false hk,
      State.raise_eq], .notKeyed h rfl hk⟩
  | true =>
    exact ⟨_, _, _, by simp only [execRewind, State.gate_ready h, State.requireKeyed_true hk,
      State.complete_eq], .rewound h rfl hk⟩

theorem execPurge_ready {s : State} {e : Engine} (h : s.Ready 0 e) :
    ∃ e' m c, execPurge s = .next (s.after e' m c) ∧ Effect s .purge e e' m c :=
  ⟨_, _, _, by simp only [execPurge, State.gate_ready h, State.complete_eq], .purged h rfl⟩

/-- A ready command answers a next state. -/
theorem exec_ready {s : State} {i : Instr} {e : Engine} (h : s.Ready i.len e) :
    ∃ e' m c, exec i s = .next (s.after e' m c) ∧ Effect s i e e' m c := by
  cases i with
  | keysetup n => exact execKeysetup_ready h
  | ivsetup n => exact execIvsetup_ready h
  | process n => exact execProcess_ready h
  | rewind => exact execRewind_ready h
  | purge => exact execPurge_ready h

/-! ### The plain path of each command, for a ready engine -/

theorem exec_keysetup_ok {s : State} {e : Engine} {k : Words4} (h : s.Ready 16 e)
    (hk : s.buf.keyWords = some k) :
    exec (.keysetup 16) s = .next (s.after ((e.keySchedule k).withErr 0) s.buf .completed) := by
  simp only [exec, execKeysetup, State.gate_ready h, keyBytes, ne_eq, not_true_eq_false, if_false, hk,
    State.complete_eq]

theorem exec_ivsetup_ok {s : State} {e : Engine} {d : Words4} (h : s.Ready 8 e) (hkey : e.keyed = true)
    (hd : s.buf.ivWords = some d) :
    exec (.ivsetup 8) s = .next (s.after ((e.ivDerive d).withErr 0) s.buf .completed) := by
  simp only [exec, execIvsetup, State.gate_ready h, State.requireKeyed_true hkey, ivBytes, ne_eq,
    not_true_eq_false, if_false, hd, State.complete_eq]

theorem exec_process_ok {s : State} {e e' : Engine} {n : Nat} {m : Buffer} (h : s.Ready n e)
    (hkey : e.keyed = true) (hp : e.process s.buf n = some (e', m)) :
    exec (.process n) s = .next (s.after (e'.withErr 0) m .completed) := by
  simp only [exec, execProcess, State.gate_ready h, State.requireKeyed_true hkey, hp,
    State.complete_buf_eq]

theorem exec_rewind_ok {s : State} {e : Engine} (h : s.Ready 0 e) (hkey : e.keyed = true) :
    exec .rewind s = .next (s.after ((e.rewind s.params).withErr 0) s.buf .completed) := by
  simp only [exec, execRewind, State.gate_ready h, State.requireKeyed_true hkey, State.complete_eq]

theorem exec_purge_ok {s : State} {e : Engine} (h : s.Ready 0 e) :
    exec .purge s = .next (s.after (e.purge.withErr 0) s.buf .completed) := by
  simp only [exec, execPurge, State.gate_ready h, State.complete_eq]

/-- Every command begins with the gate. -/
theorem exec_eq_gate (i : Instr) (s : State) : ∃ k, exec i s = s.gate i.len k := by
  cases i with
  | keysetup n => exact ⟨_, rfl⟩
  | ivsetup n => exact ⟨_, rfl⟩
  | process n => exact ⟨_, rfl⟩
  | rewind => exact ⟨_, rfl⟩
  | purge => exact ⟨_, rfl⟩

/-- Everything a command can do: refuse a buffer of the wrong length, refuse an engine that is not there,
or leave the state `after` one of its effects. It never faults in the sense of `Fault`. -/
theorem exec_cases (i : Instr) (s : State) :
    (s.buf.len ≠ i.len ∧ exec i s = .refused .bufferLengthMismatch) ∨
    (s.buf.len = i.len ∧ s.engine? = none ∧ exec i s = .refused .noSuchEngine) ∨
    (∃ e e' m c, s.buf.len = i.len ∧ s.engine? = some e ∧ exec i s = .next (s.after e' m c) ∧
      Effect s i e e' m c) := by
  obtain ⟨k, hk⟩ := exec_eq_gate i s
  rcases s.gate_cases i.len k with ⟨h, hg⟩ | ⟨h, hn, hg⟩ | ⟨e, h, he, hc, hg⟩ | ⟨e, h, he, hc, hf, hg⟩ |
      ⟨e, hr, _⟩
  · exact .inl ⟨h, hk.trans hg⟩
  · exact .inr (.inl ⟨h, hn, hk.trans hg⟩)
  · exact .inr (.inr ⟨e, _, _, _, h, he, hk.trans hg, .concurrent hc⟩)
  · exact .inr (.inr ⟨e, _, _, _, h, he, hk.trans hg, .faulted hc hf⟩)
  · obtain ⟨e', m, c, hx, he⟩ := exec_ready hr
    exact .inr (.inr ⟨e, e', m, c, hr.1, hr.2.1, hx, he⟩)

/-- Everything the machine can do with a command word that is no command. -/
theorem illegalCommand_cases (s : State) (len : Nat) :
    (s.buf.len ≠ len ∧ s.illegalCommand len = .refused .bufferLengthMismatch) ∨
    (s.buf.len = len ∧ s.engine? = none ∧ s.illegalCommand len = .refused .noSuchEngine) ∨
    (∃ e r, s.buf.len = len ∧ s.engine? = some e ∧
      s.illegalCommand len = .next (s.after e.withFault s.buf (.fault r))) := by
  rcases s.gate_cases len (fun e => s.raise e .illegalCommand) with ⟨h, hg⟩ | ⟨h, hn, hg⟩ |
      ⟨e, h, he, _, hg⟩ | ⟨e, h, he, _, _, hg⟩ | ⟨e, hr, hg⟩
  · exact .inl ⟨h, hg⟩
  · exact .inr (.inl ⟨h, hn, hg⟩)
  · exact .inr (.inr ⟨e, _, h, he, hg⟩)
  · exact .inr (.inr ⟨e, _, h, he, hg⟩)
  · exact .inr (.inr ⟨e, _, hr.1, hr.2.1, hg⟩)

theorem step_idle {s : State} (h : s.inbox = []) : step s = .next s := by
  simp only [step, h]

theorem step_powerOn {s : State} {rest : List HostEvent} (h : s.inbox = .powerOn :: rest) :
    step s = .next (s.powerOnReset rest) := by
  simp only [step, h]

theorem step_issue {s : State} {t : Transaction} {rest : List HostEvent}
    (h : s.inbox = .issue t :: rest) : step s = (s.latch t rest).runCommand := by
  simp only [step, h]

theorem runCommand_ok {s : State} {i : Instr} (h : decode s.cmd = .ok i) :
    s.runCommand = exec i s := by
  simp only [State.runCommand, h]

theorem runCommand_error {s : State} {d : DecodeError} (h : decode s.cmd = .error d) :
    s.runCommand = s.illegalCommand (lenField s.cmd) := by
  simp only [State.runCommand, h]

/-! ### Runs -/

theorem run_zero (s : State) : Sys2Proof.core.run 0 s = .next s := rfl

/-- A run whose first step answers goes on from there. -/
theorem run_succ {s t : State} (h : step s = .next t) (k : Nat) :
    Sys2Proof.core.run (k + 1) s = Sys2Proof.core.run k t := by
  have h' : Sys2Proof.core.step s = .next t := h
  simp only [Host.Core.run, h']

/-- A run that answers has a first step that answers. -/
theorem run_succ_next {s z : State} {k : Nat} (h : Sys2Proof.core.run (k + 1) s = .next z) :
    ∃ t, step s = .next t ∧ Sys2Proof.core.run k t = .next z := by
  simp only [Host.Core.run] at h
  split at h
  · rename_i t ht
    exact ⟨t, ht, h⟩
  · cases h
  · cases h

end Sys2Proof.Machine
end

