-- ==== Sys2Proof/Laws/Decode.lean ====
section
/-! SUPPORT. The three fields of the command word an instruction is encoded as, and that a word is its
fields. -/

namespace Sys2Proof

theorem opField_encode (i : Instr) : opField (encode i) = i.op := by
  apply BitVec.eq_of_getLsbD_eq
  intro j hj
  rw [opField, encode, BitVec.getLsbD_extractLsb', BitVec.getLsbD_append, BitVec.getLsbD_append]
  simp [hj, show j < 8 by omega]

theorem rsvField_encode (i : Instr) : rsvField (encode i) = 0#4 := by
  apply BitVec.eq_of_getLsbD_eq
  intro j hj
  rw [rsvField, encode, BitVec.getLsbD_extractLsb', BitVec.getLsbD_append, BitVec.getLsbD_append]
  simp [hj, show 4 + j < 8 by omega]

theorem lenField_encode {i : Instr} (h : i.WellFormed) : lenField (encode i) = i.len := by
  have hbits : (encode i).extractLsb' 8 24 = BitVec.ofNat 24 i.len := by
    apply BitVec.eq_of_getLsbD_eq
    intro j hj
    rw [encode, BitVec.getLsbD_extractLsb', BitVec.getLsbD_append]
    simp [hj]
  rw [lenField, hbits, BitVec.toNat_ofNat, Nat.mod_eq_of_lt h]

/-- A command word is the sum of its three fields (R81). -/
theorem toNat_eq_fields (w : Word) :
    w.toNat = lenField w * 256 + (rsvField w).toNat * 16 + (opField w).toNat := by
  simp only [lenField, rsvField, opField, BitVec.extractLsb'_toNat, Nat.shiftRight_eq_div_pow]
  omega

end Sys2Proof
end

