-- ==== Sys2Proof/Laws/PerInstr.lean ====
section
/-! SUPPORT. Statements about every instruction as syntax, one lemma per constructor. -/

namespace Sys2Proof.Laws.TableRow

/-- The `mask` of an instruction's row in opcode_table.json. -/
def mask : Instr → Word
  | .keysetup _ => 0x000000FF
  | .ivsetup _ => 0x000000FF
  | .process _ => 0x000000FF
  | .rewind => 0xFFFFFFFF
  | .purge => 0xFFFFFFFF

/-- The `match` of an instruction's row in opcode_table.json. -/
def pattern : Instr → Word
  | .keysetup _ => 0x00000001
  | .ivsetup _ => 0x00000002
  | .process _ => 0x00000003
  | .rewind => 0x00000004
  | .purge => 0x00000005

/-- The word an instruction is encoded as matches its own row of opcode_table.json. -/
def Statement (i : Instr) : Prop := encode i &&& mask i = pattern i

theorem low_byte (n : Nat) (v : BitVec 8) : (BitVec.ofNat 24 n ++ v) &&& 0x000000FF#32 = v.setWidth 32 := by
  apply BitVec.eq_of_getLsbD_eq
  intro i hi
  have hm : (0x000000FF#32).getLsbD i = decide (i < 8) := by
    interval_cases i <;> rfl
  rw [BitVec.getLsbD_and, hm, BitVec.getLsbD_append, BitVec.getLsbD_setWidth]
  by_cases h : i < 8
  · simp [h, hi]
  · simp only [h, decide_false, Bool.and_false, hi, decide_true, Bool.true_and]
    exact (BitVec.getLsbD_of_ge v i (by omega)).symm

theorem keysetup (len : Nat) : Statement (.keysetup len) := by
  unfold Statement
  exact (low_byte len (0#4 ++ 1#4)).trans rfl

theorem ivsetup (len : Nat) : Statement (.ivsetup len) := by
  unfold Statement
  exact (low_byte len (0#4 ++ 2#4)).trans rfl

theorem process (len : Nat) : Statement (.process len) := by
  unfold Statement
  exact (low_byte len (0#4 ++ 3#4)).trans rfl

theorem rewind : Statement .rewind := by
  unfold Statement
  decide

theorem purge : Statement .purge := by
  unfold Statement
  decide

end Sys2Proof.Laws.TableRow
end

