-- ==== Sys2Proof/Tests/Slice0.lean ====
section
/-! SUPPORT. Tests of the model's own: ill-formed terms that are refused, words written out bit by bit
from 30_encoding.md, one-step tests whose expected values are the vectors of 95_test_vectors.md, and,
for every statement that has hypotheses, a witness that meets them all. -/

namespace Sys2Proof.Tests

open Sys2Proof Sys2Proof.Machine

/-! ### Ill-formed terms are refused -/

theorem test_keysetup_length_25_bits_is_ill_formed : ¬ (Instr.keysetup (2 ^ 24)).WellFormed := by decide
theorem test_ivsetup_length_25_bits_is_ill_formed : ¬ (Instr.ivsetup (2 ^ 24)).WellFormed := by decide
theorem test_process_length_25_bits_is_ill_formed : ¬ (Instr.process (2 ^ 24)).WellFormed := by decide
theorem test_largest_length_is_well_formed : (Instr.process (2 ^ 24 - 1)).WellFormed := by decide
theorem test_unsorted_buffer_is_ill_formed : ¬ (⟨4, [(2, 1), (1, 1)]⟩ : Buffer).Wf := by decide
theorem test_repeated_index_is_ill_formed : ¬ (⟨4, [(1, 1), (1, 2)]⟩ : Buffer).Wf := by decide
theorem test_listed_zero_is_ill_formed : ¬ (⟨4, [(1, 0)]⟩ : Buffer).Wf := by decide
theorem test_index_outside_is_ill_formed : ¬ (⟨4, [(4, 1)]⟩ : Buffer).Wf := by decide
theorem test_line_of_wrong_length_is_ill_formed : ¬ (⟨.keysetup 16, [1, 2, 3]⟩ : AsmLine).Wf := by decide

/-! ### Decoding, from the layout of R81 (LEN in [31:8], RSV in [7:4], OP in [3:0]) and the codes of R82 -/

theorem test_keysetup_word :
    decode 0b00000000000000000001000000000001 = .ok (.keysetup 16) := by decide
theorem test_ivsetup_word :
    decode 0b00000000000000000000100000000010 = .ok (.ivsetup 8) := by decide
theorem test_process_word :
    decode 0b10000000000000000000000100000011 = .ok (.process 8388609) := by decide
theorem test_rewind_word : decode 0b00000000000000000000000000000100 = .ok .rewind := by decide
theorem test_purge_word : decode 0b00000000000000000000000000000101 = .ok .purge := by decide
theorem test_reserved_field_comes_first :
    decode 0b00000000000000000000000110000100 = .error .reservedField := by decide
theorem test_op_15_is_reserved :
    decode 0b00000000000000000000000000001111 = .error .reservedOp := by decide
theorem test_table_word_of_keysetup : decodeTableWord 32 0x1001 = some (.keysetup 16) := by decide
theorem test_long_process_line_text :
    (AsmLine.mk (.process 2) [0x0A, 0xFF]).text = "PROCESS 2, [0A FF]" := by decide

/-! ### The word unit and the round (95 sections 2.1, 3.1, 3.2) -/

theorem test_add32c_wraps : add32c 0xB2CB2CB3 0x4D34D34D false = 0 := by decide
theorem test_wrap_of_a_carry : wrap 0x4D34D34C 0xFFFFFFFF = true := by decide
theorem test_rotl_by_8 : rotl 0x12345678 8 = 0x34567812 := by decide
theorem test_g_of_largest_word : gFunction 0xFFFFFFFF = 0xFFFFFFFF := by decide
theorem test_g_of_a_plain_word : gFunction 0xDEADBEEF = 0xE0DC6E33 := by decide
theorem test_counter_chain_carries_twice :
    counterUpdate ⟨0xB2CB2CB2, 0x2CB2CB2C, 0, 0, 0, 0, 0, 0⟩ true =
      ⟨0, 0, 0x34D34D35, 0x4D34D34D, 0xD34D34D3, 0x34D34D34, 0x4D34D34D, 0xD34D34D3⟩ := by decide

/-! ### One step of each command -/

/-- A state with one engine, the command's buffer in place. -/
def st (e : Engine) (m : Buffer) : State := { State.reset with engines := [e], buf := m }

/-- A state whose host is about to issue one command word with its buffer to engine 0. -/
def issuing (e : Engine) (w : Word) (m : Buffer) (c : Conduct) : State :=
  { State.reset with engines := [e], inbox := [.issue ⟨0, w, m, c⟩] }

/-- The engine KEYSETUP with the all-zero key leaves (95 section 2.2). -/
def zeroKeyed : Engine :=
  { Engine.reset with
    x := ⟨0x6E9E1D18, 0xF5A54E5C, 0xF8FD49C6, 0x9B94253F, 0xDCD14A79, 0x1F32FA20, 0xD2055921, 0x53F371D0⟩
    c := ⟨0xE802074F, 0x5206296D, 0x01486DF2, 0x67203CE4, 0x23AACE55, 0x26E87A8F, 0xCC2E04F2, 0xD6A0F672⟩
    carry := true
    mx := ⟨0x6E9E1D18, 0xF5A54E5C, 0xF8FD49C6, 0x9B94253F, 0xDCD14A79, 0x1F32FA20, 0xD2055921, 0x53F371D0⟩
    mc := ⟨0xE802074F, 0x5206296D, 0x01486DF2, 0x67203CE4, 0x23AACE55, 0x26E87A8F, 0xCC2E04F2, 0xD6A0F672⟩
    mcarry := true
    keyed := true }

/-- A keyed engine with three bytes pending and a snapshot unlike its state. -/
def pending : Engine :=
  { zeroKeyed with x := .fill 7, c := .fill 9, carry := false, pend := [1, 2, 3], err := 1 }

/-- An engine that has faulted. -/
def broken : Engine := { pending with fault := true }

/-- An engine without a key and with all else set. -/
def keyless : Engine := { pending with keyed := false }

/-- What an outcome that goes on shows through `f`. -/
def shows {α : Type} (o : Outcome) (f : State → α) : Option α :=
  match o with
  | .next t => some (f t)
  | .fault _ => none
  | .refused _ => none

set_option maxRecDepth 20000 in
/-- 95 section 2.2: KEYSETUP of the all-zero key. -/
theorem test_keysetup_zero_key :
    shows (step (issuing Engine.reset 0x1001 (.zeros 16) .exclusive)) State.engines = some [zeroKeyed] := by
  decide

set_option maxRecDepth 20000 in
/-- 95 section 2.4: the master snapshot of the key 00 01 ... 0F. -/
theorem test_keysetup_counting_key :
    shows (exec (.keysetup 16) (st pending (.ofBytes
        [0, 1, 2, 3, 4, 5, 6, 7, 8, 9, 10, 11, 12, 13, 14, 15])))
      (fun t => t.engines.map fun e => (e.mx, e.mc, e.mcarry, e.pend)) =
    some [(⟨0xA31515F8, 0x5DFD3AC6, 0x33CD6AD2, 0x4BD778E5, 0x89708269, 0xD93095C1, 0x5E495F60, 0xC197863A⟩,
      ⟨0xB4ABDA29, 0x89064D90, 0xBE101C81, 0xFA4ED006, 0xED21C3B7, 0x83AA7B19, 0x0A1A3EE8, 0x1795ACA8⟩,
      true, [])] := by
  decide

set_option maxRecDepth 20000 in
/-- 95 section 2.3: IVSETUP of 00 01 ... 07 on the all-zero key, whatever the state before it. -/
theorem test_ivsetup_counting_iv :
    shows (exec (.ivsetup 8) (st pending (.ofBytes [0, 1, 2, 3, 4, 5, 6, 7])))
      (fun t => t.engines.map fun e => (e.x, e.c, e.carry, e.pend)) =
    some [(⟨0xA2D7134F, 0x07DA24C6, 0x85A1080D, 0xF78B9BF8, 0x4103FD8E, 0x7B00620E, 0x75073328, 0xF3C45768⟩,
      ⟨0x1FD35387, 0xA234FDBD, 0xD99B9DC9, 0x96F78B18, 0x6DDDA2A2, 0xF53BAE60, 0xFFFB4F2A, 0x20D9CABF⟩,
      true, [1, 2, 3])] := by
  decide

set_option maxRecDepth 20000 in
/-- 95 section 1.1: the first 18 keystream bytes of the all-zero key, and the 14 that stay pending. -/
theorem test_process_across_a_block :
    shows (step (issuing zeroKeyed 0x1203 (.zeros 18) .exclusive))
      (fun t => (t.buf.toBytes, t.engines.map (·.pend))) =
    some ([0x02, 0xF7, 0x4A, 0x1C, 0x26, 0x45, 0x6B, 0xF5, 0xEC, 0xD6, 0xA5, 0x36, 0xF0, 0x54, 0x57, 0xB1,
        0xA7, 0x8A],
      [[0xC6, 0x89, 0x47, 0x6C, 0x69, 0x7B, 0x39, 0x0C, 0x9C, 0xC5, 0x15, 0xD8, 0xE8, 0x88]]) := by
  decide

/-- R195, by hand: PEND first, byte by byte XORed into the data. -/
theorem test_process_from_pending :
    shows (exec (.process 2) (st pending (.ofBytes [0xFF, 0x02])))
      (fun t => (t.buf, t.engines)) =
    some (⟨2, [(0, 0xFE)]⟩, [{ pending with pend := [3], err := 0 }]) := by
  decide

/-- R221, R222, by hand: the default REWIND keeps PEND. -/
theorem test_rewind_restores :
    shows (step (issuing pending 0x4 .empty .exclusive)) State.engines =
      some [{ zeroKeyed with pend := [1, 2, 3] }] := by
  decide

/-- R222, by hand: the configured REWIND empties PEND. -/
theorem test_rewind_clears_when_configured :
    shows (exec .rewind { st pending .empty with params := ⟨true, 0⟩ }) State.engines =
      some [zeroKeyed] := by
  decide

/-- R225, R226, by hand: PURGE leaves the engine as at power-on, but for PEND. -/
theorem test_purge_keeps_pend :
    shows (step (issuing pending 0x5 .empty .exclusive)) State.engines =
      some [{ Engine.reset with pend := [1, 2, 3] }] := by
  decide

/-- R243, R42, by hand: after an IV of 7 bytes STATUS reads 00000102 on a keyed engine. -/
theorem test_status_after_iv_size_error :
    shows (step (issuing zeroKeyed 0x702 (.zeros 7) .exclusive)) (·.status? 0) = some (some 0x102) := by
  decide

/-- R250: ConcurrentUse comes before Faulted, and the FAULT bit shows. -/
theorem test_fault_order :
    shows (step (issuing broken 0x16 .empty .overlapping)) (fun t => (t.ended, t.status? 0)) =
      some (some (.fault .concurrentUse), some 0x301) := by
  decide

/-! ### Witnesses: every statement's hypotheses are met together -/

/-- The smallest and the largest sum, one with a carry out and one without. -/
theorem witness_WrapIsTheTrueCarry :
    (1 ≤ (0 : Word).toNat + true.toNat ∧ (0 : Word).toNat + true.toNat ≤ 2 ^ 32 - 1 ∧
      wrap (add32c 0xFFFFFFFF 0 true) 0xFFFFFFFF = true) ∧
    (1 ≤ (0xFFFFFFFF : Word).toNat + false.toNat ∧
      (0xFFFFFFFF : Word).toNat + false.toNat ≤ 2 ^ 32 - 1 ∧
      wrap (add32c 0 0xFFFFFFFF false) 0 = false) := by
  decide

theorem witness_RotationMovesEveryBit :
    (rotl 0x80000000 1).getLsbD 0 = (0x80000000 : Word).getLsbD ((0 + 32 - 1) % 32) ∧
    (rotl 0x00000001 31).getLsbD 31 = (0x00000001 : Word).getLsbD ((31 + 32 - 31) % 32) ∧
    1 ≤ 31 ∧ 31 ≤ 31 ∧ 31 < 32 := by
  decide

/-- The four bytes at the end of a sequence of five. -/
theorem witness_LittleEndianWordsRoundTrip :
    ∃ s : List Byte, s[1]? = some 2 ∧ s[1 + 1]? = some 3 ∧ s[1 + 2]? = some 4 ∧ s[1 + 3]? = some 0xFF :=
  ⟨[1, 2, 3, 4, 0xFF], by decide⟩

theorem witness_RoundUpdatesTheStateWords :
    ∃ (e : Engine) (g : Fin 8 → Word), ∀ i, g i = gFunction (e.x.get i + e.nextState.c.get i) :=
  ⟨pending, _, fun _ => rfl⟩

theorem witness_ExtractSerializesTheOutputWords :
    ∃ (x : Words8) (o : Nat → Word), o 0 = x.w0 ^^^ (x.w5 >>> 16) ^^^ (x.w3 <<< 16) ∧
      o 1 = x.w2 ^^^ (x.w7 >>> 16) ^^^ (x.w5 <<< 16) ∧ o 2 = x.w4 ^^^ (x.w1 >>> 16) ^^^ (x.w7 <<< 16) ∧
      o 3 = x.w6 ^^^ (x.w3 >>> 16) ^^^ (x.w1 <<< 16) :=
  ⟨⟨1, 2, 3, 4, 5, 6, 7, 8⟩,
    fun k => match k with | 0 => 0x00040001 | 1 => 0x00060003 | 2 => 0x00080005 | _ => 0x00020007, by decide⟩

/-- A ready engine, keyed or not, with PEND in use, for every length: also the witness of
KeysetupRejectsOtherLengths, IvsetupChecksKeyThenLength and ErrReportsHowTheCommandEnded. -/
theorem witness_Ready (n : Nat) :
    (st pending (.zeros n)).Ready n pending ∧ pending.keyed = true ∧ (Buffer.zeros n).Wf ∧
    (st keyless (.zeros n)).Ready n keyless ∧ keyless.keyed = false :=
  ⟨⟨rfl, rfl, rfl, rfl⟩, rfl, Buffer.zeros_wf n, ⟨rfl, rfl, rfl, rfl⟩, rfl⟩

theorem witness_KeysetupRunsTheKeySchedule :
    ∃ (s : State) (e : Engine) (b : Nat → Byte), s.Ready 16 e ∧ ∀ j < 16, s.buf.read j = some (b j) :=
  ⟨st pending (.ofBytes [0, 1, 2, 3, 4, 5, 6, 7, 8, 9, 10, 11, 12, 13, 14, 15]), pending,
    fun j => BitVec.ofNat 8 j, ⟨rfl, rfl, rfl, rfl⟩, by decide⟩

/-- The lengths next to 16, and the ends of the range. -/
theorem witness_KeysetupRejectsOtherLengths :
    ∀ n ∈ [0, 15, 17, 16777215], (st pending (.zeros n)).Ready n pending ∧ n ≠ 16 := by
  intro n hn
  exact ⟨(witness_Ready n).1, by rintro rfl; revert hn; decide⟩

/-- Two engines that differ in every register, with equal keys. -/
theorem witness_KeysetupDependsOnTheKeyOnly :
    (st pending (.ofBytes (List.replicate 16 7))).Ready 16 pending ∧
    (st Engine.reset (.ofBytes (List.replicate 16 7))).Ready 16 Engine.reset ∧
    ∀ j < 16, (st pending (.ofBytes (List.replicate 16 7))).buf.read j =
      (st Engine.reset (.ofBytes (List.replicate 16 7))).buf.read j :=
  ⟨⟨rfl, rfl, rfl, rfl⟩, ⟨rfl, rfl, rfl, rfl⟩, fun _ _ => rfl⟩

theorem witness_IvsetupDerivesFromTheSnapshot :
    ∃ (s : State) (e : Engine) (b : Nat → Byte), s.Ready 8 e ∧ e.keyed = true ∧
      ∀ j < 8, s.buf.read j = some (b j) :=
  ⟨st pending (.ofBytes [0, 1, 2, 3, 4, 5, 6, 7]), pending, fun j => BitVec.ofNat 8 j,
    ⟨rfl, rfl, rfl, rfl⟩, rfl, by decide⟩

/-- Both clauses at the length 8 and next to it. -/
theorem witness_IvsetupChecksKeyThenLength :
    ((st keyless (.zeros 8)).Ready 8 keyless ∧ keyless.keyed = false) ∧
    ∀ n ∈ [0, 7, 9, 16777215], (st pending (.zeros n)).Ready n pending ∧ pending.keyed = true ∧ n ≠ 8 := by
  refine ⟨⟨(witness_Ready 8).2.2.2.1, rfl⟩, fun n hn => ⟨(witness_Ready n).1, rfl, ?_⟩⟩
  rintro rfl
  revert hn
  decide

/-- IVSETUP, PROCESS, REWIND, IVSETUP on one engine: both IVSETUP complete. -/
def ivTwice : State :=
  { State.reset with
    engines := [pending]
    inbox := .issue ⟨0, 0x802, .zeros 8, .exclusive⟩ ::
      ([⟨0, 0x103, .zeros 1, .exclusive⟩, ⟨0, 0x4, .empty, .exclusive⟩].map HostEvent.issue ++
        [.issue ⟨0, 0x802, .zeros 8, .exclusive⟩]) }

theorem witness_IvsetupIsIdempotentOverRuns :
    decode 0x802 = .ok (.ivsetup 8) ∧
    decode 0x103 = .ok (.process 1) ∧ decode 0x4 = .ok .rewind ∧
    shows (Sys2Proof.core.run 1 ivTwice) (fun t => (t.ended, t.engines.length)) =
      some (some .completed, 1) ∧
    shows (Sys2Proof.core.run 4 ivTwice) (fun t => (t.ended, t.engines.length)) =
      some (some .completed, 1) := by
  decide

theorem witness_ZeroIvSkipsFourBlocks :
    (st pending (.zeros 8)).Ready 8 pending ∧ pending.keyed = true ∧
    ∀ j < 8, (st pending (.zeros 8)).buf.read j = some 0 :=
  ⟨(witness_Ready 8).1, rfl, fun _ hj => Buffer.read_zeros hj⟩

/-- For PROCESS of any length: ProcessXorsThePendingStream, ProcessLeavesTheSetupAlone,
ProcessRunsTheRoundsOfItsLength, ProcessUsesPendFirst (its last clause at 0 and at PEND_LEN, here 3) and
ProcessOfNoBytesIsANoOp. -/
theorem witness_Process :
    (∀ n, (st pending (.zeros n)).Ready n pending ∧ pending.keyed = true ∧ (Buffer.zeros n).Wf) ∧
    0 ≤ pending.pend.length ∧ 3 ≤ pending.pend.length :=
  ⟨fun n => ⟨(witness_Ready n).1, rfl, Buffer.zeros_wf n⟩, by decide, by decide⟩

theorem witness_ProcessKeepsTheUnusedTail :
    ∀ n ∈ [1, 15, 16], (st zeroKeyed (.zeros n)).Ready n zeroKeyed ∧ zeroKeyed.keyed = true ∧
      (Buffer.zeros n).Wf ∧ zeroKeyed.pend = [] ∧ 1 ≤ n ∧ n ≤ 16 := by
  decide

/-- Also of ProcessTwiceRestoresTheMessage: both ask the same of the state. -/
theorem witness_ProcessInPiecesIsProcessAtOnce :
    (st pending .empty).engine? = some pending ∧ (st pending .empty).conduct = .exclusive ∧
    pending.fault = false ∧ pending.keyed = true := by
  decide

/-- 13 bytes processed leave three pending; one more command is answered. -/
theorem witness_PendLengthFollowsTheTotal :
    (st pending (.zeros 2)).engine? = some pending ∧ (st pending (.zeros 2)).buf.Wf ∧
    pending.pend.length = pendLenOf 13 ∧ ∃ t, exec (.process 2) (st pending (.zeros 2)) = .next t :=
  ⟨rfl, Buffer.zeros_wf 2, rfl, _, rfl⟩

/-- Both clauses of RewindRestoresTheSnapshot, and of RewindIsIdempotent. -/
theorem witness_RewindRestoresTheSnapshot :
    (st pending .empty).Ready 0 pending ∧ pending.keyed = true ∧
    (st keyless .empty).Ready 0 keyless ∧ keyless.keyed = false := by
  decide

set_option maxRecDepth 20000 in
/-- The outer hypotheses, and the three equations about the snapshot: a command away from KEYSETUP. -/
theorem witness_RewindThenIvsetupIsAFreshStart :
    (st Engine.reset (.zeros 16)).Ready 16 Engine.reset ∧ (st pending .empty).engine? = some pending ∧
    (st pending .empty).conduct = .exclusive ∧ pending.fault = false ∧ pending.keyed = true ∧
    (Buffer.zeros 8).len = 8 ∧
    shows (exec (.keysetup 16) (st Engine.reset (.zeros 16)))
        (fun t => t.engines.map fun e => (e.mx, e.mc, e.mcarry)) =
      some [(pending.mx, pending.mc, pending.mcarry)] := by
  decide

/-- Both clauses; the first also for PurgedEngineNeedsANewKey, with each of its commands. -/
theorem witness_PurgeZeroesTheState :
    (st pending .empty).Ready 0 pending ∧ (st keyless .empty).Ready 0 keyless ∧
    (st broken .empty).buf.len = 0 ∧ (st broken .empty).engine? = some broken ∧
    (st broken .empty).conduct = .exclusive ∧ broken.fault = true ∧
    (∀ i ∈ [Instr.ivsetup 8, .process 16777215, .rewind],
      i.needsKey = true ∧ (Buffer.zeros i.len).len = i.len) := by
  decide

theorem witness_LengthMismatchIsRefused :
    (issuing pending 0x1001 (.zeros 15) .exclusive).inbox =
      .issue ⟨0, 0x1001, .zeros 15, .exclusive⟩ :: [] ∧
    (Buffer.zeros 15).len ≠ lenField 0x1001 := by
  decide

theorem witness_ConcurrentUseFaults :
    ∀ c ∈ [Conduct.overlapping, .touchesBuffer, .sharesBuffer],
      (issuing pending 0x4 .empty c).Issues ⟨0, 0x4, .empty, c⟩ [] pending ∧ c ≠ .exclusive := by
  decide

theorem witness_FaultedEngineOnlyFaults :
    (issuing broken 0x16 .empty .exclusive).Issues ⟨0, 0x16, .empty, .exclusive⟩ [] broken ∧
    broken.fault = true := by
  decide

/-- Each way to be reserved, at the ends of its range. -/
theorem witness_ReservedWordsAreIllegal :
    (∀ w : Word, (issuing pending w (.zeros (lenField w)) .exclusive).Issues
      ⟨0, w, .zeros (lenField w), .exclusive⟩ [] pending) ∧
    pending.fault = false ∧ rsvField 0x14 ≠ 0 ∧ rsvField 0xF4 ≠ 0 ∧ opField 0xFFFFFF00 = 0 ∧
    6 ≤ (opField 0x06).toNat ∧ 6 ≤ (opField 0x0F).toNat ∧
    (opField 0x104 = 4 ∧ lenField 0x104 ≠ 0) ∧ (opField 0xFFFFFF05 = 5 ∧ lenField 0xFFFFFF05 ≠ 0) :=
  ⟨fun _ => ⟨rfl, rfl, rfl⟩, by decide⟩

/-- Every command on an engine without a key. -/
theorem witness_KeylessUseFaults :
    ∀ i ∈ [Instr.keysetup 16, .ivsetup 8, .process 0, .process 16777215, .rewind, .purge],
      (st keyless (.zeros i.len)).Ready i.len keyless ∧ keyless.keyed = false := by
  decide

/-- An error and a fault, each a next state. -/
theorem witness_ErrorsAndFaultsChangeNothingElse :
    shows (exec (.keysetup 15) (st pending (.zeros 15))) State.ended = some (some (.error .invalidKeySize)) ∧
    shows (exec (.ivsetup 7) (st pending (.zeros 7))) State.ended = some (some (.error .invalidIVSize)) ∧
    shows (exec (.ivsetup 7) (st keyless (.zeros 7))) State.ended = some (some (.fault .notKeyed)) ∧
    (st keyless (.zeros 7)).engine? = some keyless := by
  decide

theorem witness_EveryIssuedCommandAnswers :
    (issuing pending 0xFFFFFFFF (.zeros (lenField 0xFFFFFFFF)) .exclusive).Issues
      ⟨0, 0xFFFFFFFF, .zeros (lenField 0xFFFFFFFF), .exclusive⟩ [] pending := by
  decide

/-- Steps that change what SnapshotHasTwoWriters, KeyedFollowsKeysetupAndPurge, PendHasFewWriters and
OnlyPowerOnClearsFault speak of: by a command, and by power-on. -/
theorem witness_Writers :
    shows (step (issuing pending 0x5 .empty .exclusive)) (fun t => t.engines.map fun e => (e.mcarry, e.keyed)) =
      some [(false, false)] ∧
    shows (step (issuing keyless 0x1001 (.zeros 16) .exclusive)) (fun t => t.engines.map (·.keyed)) =
      some [true] ∧
    shows (step (issuing pending 0x103 (.zeros 1) .exclusive)) (fun t => t.engines.map (·.pend)) =
      some [[2, 3]] ∧
    shows (step { st broken .empty with inbox := [.powerOn] })
      (fun t => t.engines.map fun e => (e.fault, e.keyed)) = some [(false, false)] ∧ broken.keyed = true ∧
    shows (step (issuing keyless 0x4 .empty .exclusive)) (fun t => t.engines.map (·.fault)) =
      some [true] := by
  decide

theorem witness_OnlyProcessWritesTheBuffer :
    shows (step (issuing pending 0x103 (.zeros 1) .exclusive)) (fun t => decide (t.buf ≠ .zeros 1)) =
      some true := by
  decide

theorem witness_PowerOnMeetsTheInvariant :
    (1 ≤ 1) ∧ [HostEvent.powerOn, .issue ⟨0, 0x1001, .zeros 16, .exclusive⟩].Forall HostEvent.Ok := by
  exact ⟨le_refl 1, trivial, Buffer.zeros_wf 16⟩

/-- A state that meets the invariant and is no state of reset: a key, three bytes pending, a fault to
come. -/
theorem witness_StepKeepsTheInvariant :
    (issuing pending 0xFF .empty .exclusive).Inv ∧
    shows (step (issuing pending 0xFF .empty .exclusive)) State.ended =
      some (some (.fault .illegalCommand)) := by
  refine ⟨⟨by decide, by decide, Buffer.empty_wf, ?_⟩, by decide⟩
  exact Buffer.empty_wf

theorem witness_PowerOnResetsTheControlState :
    ({ st broken .empty with inbox := [.powerOn] } : State).inbox = [.powerOn] := rfl

theorem witness_NothingRunsWithoutTheHost : (st pending .empty).inbox = [] := rfl

/-- Two engines without a key whose X differ, with a key to come. -/
theorem witness_UnsetRegistersAreNeverRead :
    (issuing Engine.reset 0x1001 (.zeros 16) .exclusive).SameButUnset
      (issuing { Engine.reset with x := .fill 1 } 0x1001 (.zeros 16) .exclusive) :=
  ⟨.cons (.inr ⟨rfl, rfl⟩) .nil, rfl⟩

/-- Two engines; engine 1 gets a command, and so does engine 0 after it. -/
theorem witness_CommandsToDifferentEnginesCommute :
    (⟨0, 0x4, .empty, .exclusive⟩ : Transaction).engine ≠
      (⟨1, 0x103, .zeros 1, .sharesBuffer⟩ : Transaction).engine ∧
    ([pending, keyless] : List Engine)[0]? = some pending ∧
    ([pending, keyless] : List Engine)[1]? = some keyless ∧
    Buffer.empty.len = lenField 0x4 ∧ (Buffer.zeros 1).len = lenField 0x103 := by
  decide

/-- The hypotheses of OtherEnginesAreUntouched: a step that answers, with another engine there. -/
theorem witness_OtherEnginesAreUntouched :
    shows (step { State.reset with
      engines := [pending, keyless], inbox := [.issue ⟨1, 0x5, .empty, .exclusive⟩] })
      (fun t => t.engines.map (·.mcarry)) = some [true, false] := by
  decide

theorem witness_BootOrderRunsSafely :
    (st pending .empty).MayEnd ∧ 0 < (st pending .empty).engines.length ∧
    (List.replicate 16 (7 : Byte)).length = 16 ∧
    ∀ l ∈ [AsmLine.mk (.ivsetup 8) (List.replicate 8 1), ⟨.ivsetup 0, []⟩, ⟨.process 0, []⟩,
      ⟨.process 1, [1]⟩, ⟨.rewind, []⟩], l.Wf ∧ l.instr.needsKey = true := by
  decide

/-- A word that decodes and one that does not, both issued. -/
theorem witness_StepRunsTheDecodedCommand :
    (issuing pending 0x4 .empty .exclusive).inbox = [.issue ⟨0, 0x4, .empty, .exclusive⟩] ∧
    decode 0x4 = .ok .rewind ∧ decode 0x14 = .error .reservedField := by
  decide

theorem witness_DecodeInvertsEncode :
    (Instr.process 16777215).WellFormed ∧ (Instr.keysetup 0).WellFormed ∧
    decode 0xFFFFFF03 = .ok (.process 16777215) := by
  decide

end Sys2Proof.Tests
end

/-! ## Proofs: the gate, one rule per way it goes (R250 points 1 to 3) -/

namespace Sys2Proof.Machine

section
variable {s : State} {len : Nat} {e : Engine} {k : Engine → Outcome}

theorem State.gate_lengthMismatch (hlen : s.buf.len ≠ len) :
    s.gate len k = .refused .bufferLengthMismatch := by
  rw [State.gate, if_pos hlen]

theorem State.gate_noSuchEngine (hlen : s.buf.len = len) (hn : s.engine? = none) :
    s.gate len k = .refused .noSuchEngine := by
  simp only [State.gate, hlen, hn, ne_eq, not_true_eq_false, if_false]

theorem State.gate_concurrentUse (hlen : s.buf.len = len) (he : s.engine? = some e)
    (hc : s.conduct ≠ .exclusive) : s.gate len k = s.raise e .concurrentUse := by
  simp only [State.gate, hlen, he, hc, ne_eq, not_true_eq_false, not_false_eq_true, if_false, if_true]

theorem State.gate_faulted (hlen : s.buf.len = len) (he : s.engine? = some e)
    (hc : s.conduct = .exclusive) (hf : e.fault = true) : s.gate len k = s.raise e .faulted := by
  simp only [State.gate, hlen, he, hc, hf, ne_eq, not_true_eq_false, if_false, if_true]

end

/-- The length of a command is the LEN field of its word (R83, R86). -/
theorem len_of_decode {w : Word} {i : Instr} (h : decode w = .ok i) : i.len = lenField w := by
  simp only [decode, ne_eq, ite_not] at h
  split at h
  · split at h
    · cases h; rfl
    · cases h; rfl
    · cases h; rfl
    · split at h
      · cases h; exact Eq.symm ‹_›
      · cases h
    · split at h
      · cases h; exact Eq.symm ‹_›
      · cases h
    · cases h
  · cases h

/-- Every command word, legal or not, begins with the gate, for the length in its LEN field. -/
theorem runCommand_eq_gate (s : State) : ∃ k, s.runCommand = s.gate (lenField s.cmd) k := by
  cases hd : decode s.cmd with
  | ok i =>
    obtain ⟨k, hk⟩ := exec_eq_gate i s
    exact ⟨k, by rw [runCommand_ok hd, hk, len_of_decode hd]⟩
  | error d => exact ⟨_, by rw [runCommand_error hd, State.illegalCommand]⟩

end Sys2Proof.Machine

/-! ## Proofs: what a step can do to the state and to one engine -/

namespace Sys2Proof.Machine

section
variable (e : Engine) (p : Params)

@[simp] theorem Engine.rewind_mx : (e.rewind p).mx = e.mx := (rfl)
@[simp] theorem Engine.rewind_mc : (e.rewind p).mc = e.mc := (rfl)
@[simp] theorem Engine.rewind_mcarry : (e.rewind p).mcarry = e.mcarry := (rfl)
@[simp] theorem Engine.rewind_pend :
    (e.rewind p).pend = if p.rewindClearsPending = true then [] else e.pend := (rfl)
@[simp] theorem Engine.rewind_keyed : (e.rewind p).keyed = e.keyed := (rfl)
@[simp] theorem Engine.rewind_fault : (e.rewind p).fault = e.fault := (rfl)

@[simp] theorem Engine.purge_pend : e.purge.pend = e.pend := (rfl)
@[simp] theorem Engine.purge_keyed : e.purge.keyed = false := (rfl)
@[simp] theorem Engine.purge_fault : e.purge.fault = e.fault := (rfl)

end

/-- Setting FAULT again changes nothing. -/
theorem Engine.withFault_of_fault {e : Engine} (h : e.fault = true) : e.withFault = e := by
  apply Engine.ext <;> simp [h]

/-- What `Engine.process_frame` says, of a PROCESS whose result is at hand. -/
theorem Engine.process_keepsSetup {e e' : Engine} {m m' : Buffer} {n : Nat} (hlen : m.len = n)
    (h : e.process m n = some (e', m')) : e.KeepsSetup e' := by
  obtain ⟨f, b, hp, -, hkeeps⟩ := e.process_frame hlen
  obtain ⟨rfl, rfl⟩ := Prod.mk.inj (Option.some.inj (h.symm.trans hp))
  exact hkeeps

/-- An answered step is one of four: nothing to do, a power-on, a command with one of its effects, or
a command word that is no command. -/
inductive Stepped (s : State) : State → Prop
  | idle : s.inbox = [] → Stepped s s
  | powerOn (rest : List HostEvent) : s.inbox = .powerOn :: rest → Stepped s (s.powerOnReset rest)
  | ran {u : Transaction} {rest : List HostEvent} {i : Instr} {e e' : Engine} {m : Buffer}
      {c : CommandEnd} : s.inbox = .issue u :: rest → decode u.cmd = .ok i →
      s.engines[u.engine]? = some e → Effect (s.latch u rest) i e e' m c →
      Stepped s ((s.latch u rest).after e' m c)
  | illegal {u : Transaction} {rest : List HostEvent} {e : Engine} (r : FaultReason) :
      s.inbox = .issue u :: rest → s.engines[u.engine]? = some e →
      Stepped s ((s.latch u rest).after e.withFault u.buf (.fault r))

theorem stepped_of_issue {s t : State} {u : Transaction} {rest : List HostEvent}
    (hin : s.inbox = .issue u :: rest) (h : step s = .next t) : Stepped s t := by
  rw [step_issue hin] at h
  cases hd : decode u.cmd with
  | ok i =>
    rw [runCommand_ok (s := s.latch u rest) hd] at h
    rcases exec_cases i (s.latch u rest) with ⟨-, hx⟩ | ⟨-, -, hx⟩ | ⟨e, e', m, c, -, he, hx, heff⟩
    · cases hx.symm.trans h
    · cases hx.symm.trans h
    · cases hx.symm.trans h
      exact .ran hin hd he heff
  | error d =>
    rw [runCommand_error (s := s.latch u rest) hd] at h
    rcases illegalCommand_cases (s.latch u rest) (lenField u.cmd) with
      ⟨-, hx⟩ | ⟨-, -, hx⟩ | ⟨e, r, -, he, hx⟩
    · cases hx.symm.trans h
    · cases hx.symm.trans h
    · cases hx.symm.trans h
      exact .illegal r hin he

theorem stepped_of_step {s t : State} (h : step s = .next t) : Stepped s t := by
  match hin : s.inbox with
  | [] =>
    cases (step_idle hin).symm.trans h
    exact .idle hin
  | .powerOn :: rest =>
    cases (step_powerOn hin).symm.trans h
    exact .powerOn rest hin
  | .issue u :: rest => exact stepped_of_issue hin h

/-- What an answered step from `s` to `t` did to engine `k`, which was `e` and is now `e'`. -/
inductive EngineStep (s t : State) (k : Nat) (e : Engine) : Engine → Prop
  | same : EngineStep s t k e e
  | powerOn (rest : List HostEvent) : s.inbox = .powerOn :: rest → EngineStep s t k e .reset
  | ran {u : Transaction} {rest : List HostEvent} {i : Instr} {e' : Engine} {m : Buffer}
      {c : CommandEnd} : s.inbox = .issue u :: rest → u.engine = k → decode u.cmd = .ok i →
      t.ended = some c → Effect (s.latch u rest) i e e' m c → EngineStep s t k e e'
  | illegal {u : Transaction} {rest : List HostEvent} (r : FaultReason) :
      s.inbox = .issue u :: rest → u.engine = k → t.ended = some (.fault r) →
      EngineStep s t k e e.withFault

/-- After a command an engine is the one the command left, or as it was. -/
theorem State.after_engine_cases {s : State} {f : Engine} {m : Buffer} {c : CommandEnd} {k : Nat}
    {e e' : Engine} (he : s.engines[k]? = some e) (he' : (s.after f m c).engines[k]? = some e') :
    (s.target = k ∧ e' = f) ∨ e' = e := by
  by_cases hk : k = s.target
  · subst hk
    exact .inl ⟨rfl, Option.some.inj (he'.symm.trans (State.after_engine? he f m c))⟩
  · rw [State.after_other s f m c hk, he] at he'
    exact .inr (Option.some.inj he').symm

theorem engineStep_of_step {s t : State} {k : Nat} {e e' : Engine} (h : step s = .next t)
    (he : s.engines[k]? = some e) (he' : t.engines[k]? = some e') : EngineStep s t k e e' := by
  cases stepped_of_step h with
  | idle =>
    cases he.symm.trans he'
    exact .same
  | powerOn rest hin =>
    obtain rfl : e' = Engine.reset :=
      List.eq_of_mem_replicate (List.mem_of_getElem? (State.powerOnReset_engines s rest ▸ he'))
    exact .powerOn rest hin
  | @ran u rest i f f' m c hin hd hf heff =>
    rcases State.after_engine_cases (s := s.latch u rest) he he' with ⟨hk, rfl⟩ | rfl
    · cases hk
      cases he.symm.trans hf
      exact .ran hin rfl hd rfl heff
    · exact .same
  | @illegal u rest f r hin hf =>
    rcases State.after_engine_cases (s := s.latch u rest) he he' with ⟨hk, rfl⟩ | rfl
    · cases hk
      cases he.symm.trans hf
      exact .illegal r hin rfl rfl
    · exact .same

/-! ## Proofs: every step keeps the invariant (O45) -/

/-- PROCESS keeps the canonical form of its buffer, and leaves at most 15 bytes pending. -/
theorem Engine.process_keepsOk {e e' : Engine} {m m' : Buffer} {n : Nat} (hwf : m.Wf)
    (hlen : m.len = n) (hpend : e.pend.length ≤ 15) (h : e.process m n = some (e', m')) :
    m'.Wf ∧ e'.pend.length ≤ 15 := by
  obtain ⟨f, b, hp, hb, -, -, hf⟩ := e.process_spec hwf hlen
  obtain ⟨rfl, rfl⟩ := Prod.mk.inj (Option.some.inj (h.symm.trans hp))
  refine ⟨hb, ?_⟩
  rw [hf]
  split
  · rw [Engine.withPend_pend, List.length_drop]
    omega
  · rw [Engine.withPend_pend, List.length_drop, length_extract]
    omega

theorem ErrorKind.code_ne_three (k : ErrorKind) : k.code ≠ 3#2 := by
  cases k <;> decide

/-- Every command leaves its engine `Ok` and its buffer in canonical form. -/
theorem Effect.keepsOk {s : State} {i : Instr} {e e' : Engine} {m : Buffer} {c : CommandEnd}
    (h : Effect s i e e' m c) (hwf : s.buf.Wf) (hok : e.Ok) : e'.Ok ∧ m.Wf := by
  obtain ⟨hpend, herr⟩ := hok
  have hzero : (0#2 : BitVec 2) ≠ 3#2 := by decide
  cases h with
  | concurrent | faulted | notKeyed => exact ⟨⟨hpend, herr⟩, hwf⟩
  | keySize => exact ⟨⟨hpend, ErrorKind.invalidKeySize.code_ne_three⟩, hwf⟩
  | ivSize => exact ⟨⟨hpend, ErrorKind.invalidIVSize.code_ne_three⟩, hwf⟩
  | keyed k =>
    refine ⟨⟨?_, hzero⟩, hwf⟩
    rw [Engine.withErr_pend, Engine.keySchedule_pend]
    exact Nat.zero_le 15
  | ivDerived d =>
    refine ⟨⟨?_, hzero⟩, hwf⟩
    rwa [Engine.withErr_pend, Engine.ivDerive_pend]
  | processed n f m hr hi hkey hp =>
    subst hi
    obtain ⟨hm, hf⟩ := Engine.process_keepsOk hwf hr.1 hpend hp
    exact ⟨⟨hf, hzero⟩, hm⟩
  | rewound =>
    refine ⟨⟨?_, hzero⟩, hwf⟩
    rw [Engine.withErr_pend, Engine.rewind_pend]
    split
    · exact Nat.zero_le 15
    · exact hpend
  | purged => exact ⟨⟨hpend, hzero⟩, hwf⟩

theorem Engine.reset_ok : Engine.reset.Ok := by decide

/-- Power-on meets the invariant, whatever was before it. -/
theorem State.powerOn_inv (p : Params) {n : Nat} {inbox : List HostEvent} (hn : 1 ≤ n)
    (hin : inbox.Forall HostEvent.Ok) : (State.powerOn p n inbox).Inv where
  hasEngine := by
    rw [State.powerOn]
    exact List.ne_nil_of_length_pos (by rw [List.length_replicate]; exact hn)
  enginesOk := fun _ he => List.eq_of_mem_replicate he ▸ Engine.reset_ok
  bufWf := Buffer.empty_wf
  inboxOk := hin

/-- The invariant holds of the host's next action and of those after it. -/
theorem State.Inv.inbox_cons {s : State} (hs : s.Inv) {a : HostEvent} {rest : List HostEvent}
    (hin : s.inbox = a :: rest) : a.Ok ∧ rest.Forall HostEvent.Ok :=
  (List.forall_cons HostEvent.Ok a rest).mp (hin ▸ hs.inboxOk)

/-- A transaction that leaves its engine `Ok` and its buffer in canonical form keeps the invariant. -/
theorem State.Inv.after_latch {s : State} (hs : s.Inv) {u : Transaction} {rest : List HostEvent}
    (hin : s.inbox = .issue u :: rest) {e : Engine} {m : Buffer} (he : e.Ok) (hm : m.Wf)
    (c : CommandEnd) : ((s.latch u rest).after e m c).Inv where
  hasEngine := by
    rw [State.after_engines, ne_eq, List.set_eq_nil_iff]
    exact hs.hasEngine
  enginesOk := fun f hf => by
    rcases List.mem_or_eq_of_mem_set hf with hf | rfl
    · exact hs.enginesOk f hf
    · exact he
  bufWf := hm
  inboxOk := (hs.inbox_cons hin).2

/-- Settles O45: a case for each kind of step; a command keeps its engine `Ok` and its buffer in
canonical form. -/
theorem stepKeepsTheInvariant : Obligations.StepKeepsTheInvariant := by
  intro s t hs h
  cases stepped_of_step h with
  | idle => exact hs
  | powerOn rest hin =>
    exact State.powerOn_inv _ (List.length_pos_iff.mpr hs.hasEngine) (hs.inbox_cons hin).2
  | @ran u rest i e e' m c hin hd he heff =>
    obtain ⟨hok, hm⟩ := heff.keepsOk (hs.inbox_cons hin).1 (hs.enginesOk e (List.mem_of_getElem? he))
    exact hs.after_latch hin hok hm c
  | @illegal u rest e r hin he =>
    have hok : e.withFault.Ok := hs.enginesOk e (List.mem_of_getElem? he)
    exact hs.after_latch hin hok (hs.inbox_cons hin).1 _

end Sys2Proof.Machine

/-! ## Proofs: what R46 leaves unset is never read (O49) -/

namespace Sys2Proof.Machine

/-! ### Engines that differ only there -/

section
variable {e e' : Engine}

theorem Engine.SameButUnset.keyed (h : e.SameButUnset e') : e'.keyed = e.keyed := by
  rcases h with rfl | ⟨-, h⟩
  · rfl
  · rw [h]

theorem Engine.SameButUnset.fault (h : e.SameButUnset e') : e'.fault = e.fault := by
  rcases h with rfl | ⟨-, h⟩
  · rfl
  · rw [h]

theorem Engine.SameButUnset.err (h : e.SameButUnset e') : e'.err = e.err := by
  rcases h with rfl | ⟨-, h⟩
  · rfl
  · rw [h]

/-- A keyed engine has nothing unset. -/
theorem Engine.SameButUnset.eq_of_keyed (h : e.SameButUnset e') (hk : e.keyed = true) : e' = e := by
  rcases h with rfl | ⟨hk', -⟩
  · rfl
  · rw [hk] at hk'
    cases hk'

theorem Engine.SameButUnset.withErr (h : e.SameButUnset e') (r : BitVec 2) :
    (e.withErr r).SameButUnset (e'.withErr r) := by
  rcases h with rfl | ⟨hk, h⟩
  · exact .inl rfl
  · exact .inr ⟨hk, by rw [h]; rfl⟩

theorem Engine.SameButUnset.withFault (h : e.SameButUnset e') :
    e.withFault.SameButUnset e'.withFault := by
  rcases h with rfl | ⟨hk, h⟩
  · exact .inl rfl
  · exact .inr ⟨hk, by rw [h]; rfl⟩

/-- PURGE overwrites all that may be unset (R225). -/
theorem Engine.SameButUnset.purge_eq (h : e.SameButUnset e') : e'.purge = e.purge := by
  rcases h with rfl | ⟨-, h⟩
  · rfl
  · rw [h]
    rfl

end

/-- The coupling and the snapshot overwrite the old snapshot, PEND and KEYED. -/
theorem Engine.takeSnapshot_couple_congr {e e' : Engine} (hx : e'.x = e.x) (hc : e'.c = e.c)
    (hk : e'.carry = e.carry) (hf : e'.fault = e.fault) (hr : e'.err = e.err) :
    e'.couple.takeSnapshot = e.couple.takeSnapshot := by
  apply Engine.ext <;> simp [hx, hc, hk, hf, hr]

/-- The engine of a fresh key holds, of the engine before it, FAULT and STATUS.ERR only (R138). -/
theorem Engine.keySchedule_congr {e e' : Engine} (hf : e'.fault = e.fault) (hr : e'.err = e.err)
    (k : Words4) : e'.keySchedule k = e.keySchedule k := by
  obtain ⟨hx, hc, hk⟩ := Engine.rounds_congr warmupRounds
    (e := e'.withCipher (keyState k) (keyCounter k) false)
    (e' := e.withCipher (keyState k) (keyCounter k) false)
    (by simp only [Engine.withCipher_x]) (by simp only [Engine.withCipher_c])
    (by simp only [Engine.withCipher_carry])
  rw [Engine.keySchedule, Engine.keySchedule]
  apply Engine.takeSnapshot_couple_congr hx hc hk
  · rw [Engine.rounds_fault, Engine.rounds_fault, Engine.withCipher_fault, Engine.withCipher_fault, hf]
  · rw [Engine.rounds_err, Engine.rounds_err, Engine.withCipher_err, Engine.withCipher_err, hr]

/-! ### States that differ only there -/

section
variable {s s' : State}

/-- Of all that a command reads, only the engines may differ. -/
theorem State.SameButUnset.fields (h : s.SameButUnset s') :
    s'.buf = s.buf ∧ s'.conduct = s.conduct ∧ s'.params = s.params := by
  obtain ⟨-, h⟩ := h
  rw [h]
  exact ⟨rfl, rfl, rfl⟩

/-- The command goes to no engine in both states, or to engines that differ at most so. -/
theorem State.SameButUnset.engine? (h : s.SameButUnset s') :
    (s.engine? = none ∧ s'.engine? = none) ∨
    ∃ e e', s.engine? = some e ∧ s'.engine? = some e' ∧ e.SameButUnset e' := by
  obtain ⟨hes, h⟩ := h
  have htarget : s'.target = s.target := by rw [h]
  rw [List.forall₂_iff_get] at hes
  obtain ⟨hlen, hget⟩ := hes
  by_cases hlt : s.target < s.engines.length
  · have hlt' : s.target < s'.engines.length := hlen ▸ hlt
    exact .inr ⟨_, _, List.getElem?_eq_getElem hlt,
      by rw [State.engine?, htarget]; exact List.getElem?_eq_getElem hlt', hget _ hlt hlt'⟩
  · have hge : s.engines.length ≤ s.target := Nat.le_of_not_lt hlt
    exact .inl ⟨List.getElem?_eq_none hge,
      by rw [State.engine?, htarget]; exact List.getElem?_eq_none (hlen ▸ hge)⟩

theorem State.SameButUnset.latch (h : s.SameButUnset s') (u : Transaction) (rest : List HostEvent) :
    (s.latch u rest).SameButUnset (s'.latch u rest) :=
  ⟨h.1, by rw [h.2]; rfl⟩

/-- Power-on gives every engine its values anew, unset or not. -/
theorem State.SameButUnset.powerOnReset_eq (h : s.SameButUnset s') (rest : List HostEvent) :
    s'.powerOnReset rest = s.powerOnReset rest := by
  rw [State.powerOnReset, State.powerOnReset, h.1.length_eq, h.fields.2.2]

theorem forall₂_set {α : Type} {R : α → α → Prop} {l l' : List α} (h : List.Forall₂ R l l') {a a' : α}
    (ha : R a a') (n : Nat) : List.Forall₂ R (l.set n a) (l'.set n a') := by
  induction h generalizing n with
  | nil => exact .nil
  | cons hb hl ih =>
    cases n with
    | zero => exact .cons ha hl
    | succ n => exact .cons hb (ih n)

theorem State.SameButUnset.after (h : s.SameButUnset s') {e e' : Engine} (he : e.SameButUnset e')
    (m : Buffer) (c : CommandEnd) : (s.after e m c).SameButUnset (s'.after e' m c) := by
  obtain ⟨hes, h⟩ := h
  rw [h]
  exact ⟨forall₂_set hes he s.target, rfl⟩

/-! ### Outcomes that differ only there -/

theorem sameButUnset_complete (h : s.SameButUnset s') {e e' : Engine} (he : e.SameButUnset e') :
    Outcome.SameButUnset (s.complete e) (s'.complete e') := by
  rw [State.complete_eq, State.complete_eq, h.fields.1]
  exact h.after (he.withErr 0) s.buf .completed

theorem sameButUnset_failWith (h : s.SameButUnset s') {e e' : Engine} (he : e.SameButUnset e')
    (k : ErrorKind) : Outcome.SameButUnset (s.failWith e k) (s'.failWith e' k) := by
  rw [State.failWith_eq, State.failWith_eq, h.fields.1]
  exact h.after (he.withErr k.code) s.buf (.error k)

theorem sameButUnset_raise (h : s.SameButUnset s') {e e' : Engine} (he : e.SameButUnset e')
    (r : FaultReason) : Outcome.SameButUnset (s.raise e r) (s'.raise e' r) := by
  rw [State.raise_eq, State.raise_eq, h.fields.1]
  exact h.after he.withFault s.buf (.fault r)

/-- The gate reads nothing unset, so a gated command need only agree on the engine it goes on with. -/
theorem sameButUnset_gate (h : s.SameButUnset s') (len : Nat) {k k' : Engine → Outcome}
    (hk : ∀ e e' : Engine, e.SameButUnset e' → Outcome.SameButUnset (k e) (k' e')) :
    Outcome.SameButUnset (s.gate len k) (s'.gate len k') := by
  obtain ⟨hbuf, hconduct, -⟩ := h.fields
  by_cases hlen : s.buf.len = len
  · have hlen' : s'.buf.len = len := hbuf ▸ hlen
    rcases h.engine? with ⟨hn, hn'⟩ | ⟨e, e', hs, hs', he⟩
    · rw [State.gate_noSuchEngine hlen hn, State.gate_noSuchEngine hlen' hn']
      rfl
    · by_cases hc : s.conduct = .exclusive
      · have hc' : s'.conduct = .exclusive := hconduct.trans hc
        cases hf : e.fault with
        | true =>
          rw [State.gate_faulted hlen hs hc hf, State.gate_faulted hlen' hs' hc' (he.fault.trans hf)]
          exact sameButUnset_raise h he .faulted
        | false =>
          rw [State.gate_ready ⟨hlen, hs, hc, hf⟩, State.gate_ready ⟨hlen', hs', hc', he.fault.trans hf⟩]
          exact hk e e' he
      · rw [State.gate_concurrentUse hlen hs hc, State.gate_concurrentUse hlen' hs' (hconduct ▸ hc)]
        exact sameButUnset_raise h he .concurrentUse
  · rw [State.gate_lengthMismatch hlen, State.gate_lengthMismatch (s := s') (hbuf ▸ hlen)]
    rfl

/-- Past the KEYED check both states go on with the same engine. -/
theorem sameButUnset_requireKeyed (h : s.SameButUnset s') {e e' : Engine} (he : e.SameButUnset e')
    {o o' : Outcome} (ho : e' = e → Outcome.SameButUnset o o') :
    Outcome.SameButUnset (s.requireKeyed e o) (s'.requireKeyed e' o') := by
  cases hk : e.keyed with
  | true =>
    rw [State.requireKeyed_true hk, State.requireKeyed_true (he.keyed.trans hk)]
    exact ho (he.eq_of_keyed hk)
  | false =>
    rw [State.requireKeyed_false hk, State.requireKeyed_false (he.keyed.trans hk)]
    exact sameButUnset_raise h he .notKeyed

theorem sameButUnset_execKeysetup (h : s.SameButUnset s') (n : Nat) :
    Outcome.SameButUnset (execKeysetup n s) (execKeysetup n s') := by
  rw [execKeysetup, execKeysetup, h.fields.1]
  refine sameButUnset_gate h n fun e e' he => ?_
  split
  · exact sameButUnset_failWith h he .invalidKeySize
  · cases s.buf.keyWords with
    | none => rfl
    | some k => exact sameButUnset_complete h (.inl (Engine.keySchedule_congr he.fault he.err k))

theorem sameButUnset_execIvsetup (h : s.SameButUnset s') (n : Nat) :
    Outcome.SameButUnset (execIvsetup n s) (execIvsetup n s') := by
  rw [execIvsetup, execIvsetup, h.fields.1]
  refine sameButUnset_gate h n fun e e' he => sameButUnset_requireKeyed h he fun heq => ?_
  subst heq
  split
  · exact sameButUnset_failWith h he .invalidIVSize
  · cases s.buf.ivWords with
    | none => rfl
    | some d => exact sameButUnset_complete h (.inl rfl)

theorem sameButUnset_execProcess (h : s.SameButUnset s') (n : Nat) :
    Outcome.SameButUnset (execProcess n s) (execProcess n s') := by
  rw [execProcess, execProcess, h.fields.1]
  refine sameButUnset_gate h n fun e e' he => sameButUnset_requireKeyed h he fun heq => ?_
  subst heq
  cases e'.process s.buf n with
  | none => rfl
  | some r =>
    obtain ⟨f, m⟩ := r
    exact h.after (.inl rfl) m .completed

theorem sameButUnset_execRewind (h : s.SameButUnset s') :
    Outcome.SameButUnset (execRewind s) (execRewind s') := by
  rw [execRewind, execRewind, h.fields.2.2]
  refine sameButUnset_gate h 0 fun e e' he => sameButUnset_requireKeyed h he fun heq => ?_
  subst heq
  exact sameButUnset_complete h (.inl rfl)

theorem sameButUnset_execPurge (h : s.SameButUnset s') :
    Outcome.SameButUnset (execPurge s) (execPurge s') := by
  rw [execPurge, execPurge]
  exact sameButUnset_gate h 0 fun _ _ he => sameButUnset_complete h (.inl he.purge_eq)

/-- No command reads what is unset. -/
theorem sameButUnset_exec (h : s.SameButUnset s') (i : Instr) :
    Outcome.SameButUnset (exec i s) (exec i s') := by
  cases i with
  | keysetup n => exact sameButUnset_execKeysetup h n
  | ivsetup n => exact sameButUnset_execIvsetup h n
  | process n => exact sameButUnset_execProcess h n
  | rewind => exact sameButUnset_execRewind h
  | purge => exact sameButUnset_execPurge h

/-- Whatever word is in CMD, command or not, nothing unset is read. -/
theorem sameButUnset_runCommand (h : s.SameButUnset s') :
    Outcome.SameButUnset s.runCommand s'.runCommand := by
  have hcmd : s'.cmd = s.cmd := by rw [h.2]
  cases hd : decode s.cmd with
  | ok i =>
    rw [runCommand_ok hd, runCommand_ok (hcmd ▸ hd)]
    exact sameButUnset_exec h i
  | error d =>
    rw [runCommand_error hd, runCommand_error (s := s') (hcmd ▸ hd), hcmd]
    exact sameButUnset_gate h _ fun _ _ he => sameButUnset_raise h he .illegalCommand

end

/-- Settles O49: a step reads the engines through its command only, and each command either needs a key,
so that nothing is unset, or overwrites what is. -/
theorem unsetRegistersAreNeverRead : Obligations.UnsetRegistersAreNeverRead := by
  intro s s' h
  have hinbox : s'.inbox = s.inbox := by rw [h.2]
  match hin : s.inbox with
  | [] =>
    rw [step_idle hin, step_idle (hinbox.trans hin)]
    exact h
  | .powerOn :: rest =>
    rw [step_powerOn hin, step_powerOn (hinbox.trans hin), h.powerOnReset_eq rest]
    exact ⟨List.forall₂_same.mpr fun _ _ => .inl rfl, rfl⟩
  | .issue u :: rest =>
    rw [step_issue hin, step_issue (hinbox.trans hin)]
    exact sameButUnset_runCommand (h.latch u rest)

end Sys2Proof.Machine

/-! ## Proofs: who writes which register (O18, O39 to O42, O33) -/

namespace Sys2Proof.Machine

/-- Settles O18, by the frame of the body of PROCESS. -/
theorem processLeavesTheSetupAlone : Obligations.ProcessLeavesTheSetupAlone := by
  intro s e n hr hkey
  have ⟨hlen, _, _, hf⟩ := hr
  obtain ⟨e', m, hp, hm, hkeeps⟩ := e.process_frame hlen
  refine ⟨e'.withErr 0, m, exec_process_ok hr hkey hp, hm.trans hlen.symm, ?_⟩
  simp [hkeeps.mx, hkeeps.mc, hkeeps.mcarry, hkeeps.keyed, hkeeps.fault, hkey, hf]

section
variable {s : State} {i : Instr} {e e' : Engine} {m : Buffer} {c : CommandEnd}

/-- A command keeps the snapshot, or is a completed KEYSETUP or PURGE (R34). -/
theorem Effect.snapshot (h : Effect s i e e' m c) :
    (e'.mx = e.mx ∧ e'.mc = e.mc ∧ e'.mcarry = e.mcarry) ∨
    (c = .completed ∧ (i = .keysetup 16 ∨ i = .purge)) := by
  cases h with
  | concurrent | faulted | notKeyed | keySize | ivSize | ivDerived | rewound => simp
  | keyed k hr hi => exact .inr ⟨rfl, .inl hi⟩
  | purged hr hi => exact .inr ⟨rfl, .inr hi⟩
  | processed n f m hr hi hkey hp =>
    subst hi
    have hkeeps := Engine.process_keepsSetup hr.1 hp
    simp [hkeeps.mx, hkeeps.mc, hkeeps.mcarry]

/-- A command keeps KEYED, or is a completed KEYSETUP, which sets it, or a completed PURGE, which clears
it (R39). -/
theorem Effect.keyed_flag (h : Effect s i e e' m c) :
    e'.keyed = e.keyed ∨
    (c = .completed ∧ ((i = .keysetup 16 ∧ e'.keyed = true) ∨ (i = .purge ∧ e'.keyed = false))) := by
  cases h with
  | concurrent | faulted | notKeyed | keySize | ivSize | ivDerived | rewound => simp
  | keyed k hr hi => simp [hi]
  | purged hr hi => simp [hi]
  | processed n f m hr hi hkey hp =>
    subst hi
    have hkeeps := Engine.process_keepsSetup hr.1 hp
    simp [hkeeps.keyed]

/-- A command keeps PEND, or is a completed PROCESS, a completed KEYSETUP or a REWIND that clears it
(R38). -/
theorem Effect.pend (h : Effect s i e e' m c) :
    e'.pend = e.pend ∨
    (c = .completed ∧
      ((∃ n, i = .process n) ∨ (i = .keysetup 16 ∧ e'.pend = []) ∨
        (i = .rewind ∧ s.params.rewindClearsPending = true ∧ e'.pend = []))) := by
  cases h with
  | concurrent | faulted | notKeyed | keySize | ivSize | ivDerived | purged => simp
  | keyed k hr hi => simp [hi]
  | processed n f m hr hi => exact .inr ⟨rfl, .inl ⟨n, hi⟩⟩
  | rewound hr hi =>
    by_cases hp : s.params.rewindClearsPending = true
    · simp [hi, hp]
    · simp [hp]

/-- A command keeps FAULT, or faults and sets it (R41). -/
theorem Effect.fault_flag (h : Effect s i e e' m c) :
    e'.fault = e.fault ∨ (e'.fault = true ∧ ∃ r, c = .fault r) := by
  cases h with
  | concurrent | faulted | notKeyed => exact .inr ⟨rfl, _, rfl⟩
  | keySize | ivSize | keyed | ivDerived | rewound | purged => simp
  | processed n f m hr hi hkey hp =>
    subst hi
    have hkeeps := Engine.process_keepsSetup hr.1 hp
    simp [hkeeps.fault]

end

/-- Settles O39: of the commands only a completed KEYSETUP or PURGE writes the snapshot. -/
theorem snapshotHasTwoWriters : Obligations.SnapshotHasTwoWriters := by
  intro s t k e e' h he he'
  cases engineStep_of_step h he he' with
  | same => exact .inl ⟨rfl, rfl, rfl⟩
  | powerOn rest hin => exact .inr (.inl ⟨rest, hin⟩)
  | illegal r hin hk hend => simp
  | @ran u rest i _ m c hin hk hd hend heff =>
    rcases heff.snapshot with hkeep | ⟨rfl, rfl | rfl⟩
    · exact .inl hkeep
    · exact .inr (.inr ⟨u, rest, hin, hk, hend, .inl hd⟩)
    · exact .inr (.inr ⟨u, rest, hin, hk, hend, .inr hd⟩)

/-- Settles O40: of the commands only a completed KEYSETUP sets KEYED and only a completed PURGE clears
it. -/
theorem keyedFollowsKeysetupAndPurge : Obligations.KeyedFollowsKeysetupAndPurge := by
  intro s t k e e' h he he' hne
  cases engineStep_of_step h he he' with
  | same => exact absurd rfl hne
  | powerOn rest hin => exact .inl ⟨⟨rest, hin⟩, rfl⟩
  | illegal r hin hk hend => exact absurd e.withFault_keyed hne
  | @ran u rest i _ m c hin hk hd hend heff =>
    rcases heff.keyed_flag with hkeep | ⟨rfl, ⟨rfl, hset⟩ | ⟨rfl, hclear⟩⟩
    · exact absurd hkeep hne
    · exact .inr ⟨u, rest, hin, hk, hend, .inl ⟨hd, hset⟩⟩
    · exact .inr ⟨u, rest, hin, hk, hend, .inr ⟨hd, hclear⟩⟩

/-- Settles O41: of the commands only PROCESS, KEYSETUP and a clearing REWIND write PEND. -/
theorem pendHasFewWriters : Obligations.PendHasFewWriters := by
  intro s t k e e' h he he' hne
  cases engineStep_of_step h he he' with
  | same => exact absurd rfl hne
  | powerOn rest hin => exact .inl ⟨rest, hin⟩
  | illegal r hin hk hend => exact absurd e.withFault_pend hne
  | @ran u rest i _ m c hin hk hd hend heff =>
    rcases heff.pend with hkeep | ⟨rfl, ⟨n, rfl⟩ | ⟨rfl, hnil⟩ | ⟨rfl, hp, hnil⟩⟩
    · exact absurd hkeep hne
    · exact .inr ⟨u, rest, hin, hk, hend, .inl ⟨n, hd⟩⟩
    · exact .inr ⟨u, rest, hin, hk, hend, .inr (.inl ⟨hd, hnil⟩)⟩
    · exact .inr ⟨u, rest, hin, hk, hend, .inr (.inr ⟨hd, hp, hnil⟩)⟩

/-- What a step does to the FAULT of an engine (R41): it keeps it, clears it at power-on, or sets it by a
command to that engine that faults. -/
theorem EngineStep.fault_flag {s t : State} {k : Nat} {e e' : Engine} (h : EngineStep s t k e e') :
    e'.fault = e.fault ∨ (∃ rest, s.inbox = .powerOn :: rest) ∧ e'.fault = false ∨
    e'.fault = true ∧ ∃ (u : Transaction) (rest : List HostEvent) (r : FaultReason),
      s.inbox = .issue u :: rest ∧ u.engine = k ∧ t.ended = some (.fault r) := by
  cases h with
  | same => exact .inl rfl
  | powerOn rest hin => exact .inr (.inl ⟨⟨rest, hin⟩, rfl⟩)
  | @illegal u rest r hin hk hend => exact .inr (.inr ⟨e.withFault_fault, u, rest, r, hin, hk, hend⟩)
  | @ran u rest i _ m c hin hk hd hend heff =>
    rcases heff.fault_flag with hkeep | ⟨hset, r, rfl⟩
    · exact .inl hkeep
    · exact .inr (.inr ⟨hset, u, rest, r, hin, hk, hend⟩)

/-- Settles O42: FAULT stays but at power-on, which clears it, and at a fault, which sets it. -/
theorem onlyPowerOnClearsFault : Obligations.OnlyPowerOnClearsFault := by
  intro s t k e e' h he he'
  have hstep := (engineStep_of_step h he he').fault_flag
  refine ⟨fun hbefore hafter => ?_, fun hbefore hafter => ?_⟩
  · rcases hstep with hkeep | ⟨hpower, -⟩ | ⟨hset, -⟩
    · simp [hbefore, hafter] at hkeep
    · exact hpower
    · simp [hafter] at hset
  · rcases hstep with hkeep | ⟨-, hclear⟩ | ⟨-, hfault⟩
    · simp [hbefore, hafter] at hkeep
    · simp [hafter] at hclear
    · exact hfault

/-- Settles O33: the gate raises Faulted before the command word counts, and FAULT is set already. -/
theorem faultedEngineOnlyFaults : Obligations.FaultedEngineOnlyFaults := by
  rintro s t rest e ⟨hin, hlen, he⟩ hc hf
  obtain ⟨k, hk⟩ := runCommand_eq_gate (s.latch t rest)
  have hgate : (s.latch t rest).gate (lenField t.cmd) k = (s.latch t rest).raise e .faulted :=
    State.gate_faulted hlen he hc hf
  calc step s = (s.latch t rest).runCommand := step_issue hin
    _ = (s.latch t rest).raise e .faulted := hk.trans hgate
    _ = .next ((s.latch t rest).after e t.buf (.fault .faulted)) := by
      rw [State.raise_eq, Engine.withFault_of_fault hf, State.latch_buf]

/-! ## Proofs: power-on and STATUS (O44, O46, O47) -/

/-- Settles O44. -/
theorem powerOnMeetsTheInvariant : Obligations.PowerOnMeetsTheInvariant :=
  ⟨State.powerOn_inv .default (le_refl 1) trivial, fun p _ _ hn hin => State.powerOn_inv p hn hin⟩

/-- A flag moved to bit `n` of a word shows there and nowhere else. -/
theorem getLsbD_shl_flag (b : Bool) (n : Nat) {j : Nat} (hj : j < 32) :
    (shl ((BitVec.ofBool b).setWidth 32) n).getLsbD j = (decide (j = n) && b) := by
  simp only [shl, BitVec.getLsbD_shiftLeft, BitVec.getLsbD_setWidth, BitVec.getLsbD_ofBool, hj,
    show j - n < 32 by omega]
  by_cases hlt : j < n
  · simp [hlt, show j ≠ n by omega]
  · simp [hlt, show j - n = 0 ↔ j = n by omega]

/-- Settles O46, field by field: ERR is two bits wide, KEYED is moved to bit 8 and FAULT to bit 9. -/
theorem statusShowsErrKeyedAndFault : Obligations.StatusShowsErrKeyedAndFault := by
  intro e j hj
  simp only [Engine.status, or32, BitVec.getLsbD_or, BitVec.getLsbD_setWidth, getLsbD_shl_flag _ _ hj]
  by_cases hlow : j < 2
  · simp [hlow, hj, show j ≠ 8 by omega, show j ≠ 9 by omega]
  · have herr : e.err.getLsbD j = false := BitVec.getLsbD_of_ge _ _ (by omega)
    by_cases h8 : j = 8
    · simp [h8]
    · by_cases h9 : j = 9 <;> simp [hlow, h8, h9, herr]

/-- The values of R46. -/
theorem Engine.reset_control : Engine.reset.pend = [] ∧ Engine.reset.keyed = false ∧
    Engine.reset.fault = false ∧ Engine.reset.status = 0 := by
  decide

/-- Settles O47: power-on leaves no engine but at its values of R46. -/
theorem powerOnResetsTheControlState : Obligations.PowerOnResetsTheControlState := by
  refine ⟨fun e he => List.eq_of_mem_replicate he ▸ Engine.reset_control, fun s rest hin => ?_⟩
  refine ⟨s.powerOnReset rest, step_powerOn hin, ?_, State.powerOnReset_params s rest,
    State.powerOnReset_inbox s rest, fun e he => ?_⟩
  · rw [State.powerOnReset_engines, List.length_replicate]
  · rw [State.powerOnReset_engines] at he
    exact List.eq_of_mem_replicate he ▸ Engine.reset_control

end Sys2Proof.Machine

/-! ## Proofs: what a command reads of the state, and what it does to its buffer (O31, O43, O51, O52) -/

namespace Sys2Proof.Machine

/-! ### What a word that does not get past the gate answers -/

section
variable {s : State}

theorem runCommand_lengthMismatch (hlen : s.buf.len ≠ lenField s.cmd) :
    s.runCommand = .refused .bufferLengthMismatch := by
  obtain ⟨k, hk⟩ := runCommand_eq_gate s
  exact hk.trans (State.gate_lengthMismatch hlen)

theorem runCommand_noSuchEngine (hlen : s.buf.len = lenField s.cmd) (hn : s.engine? = none) :
    s.runCommand = .refused .noSuchEngine := by
  obtain ⟨k, hk⟩ := runCommand_eq_gate s
  exact hk.trans (State.gate_noSuchEngine hlen hn)

end

/-- Settles O31: the length check of the gate comes before anything else. -/
theorem lengthMismatchIsRefused : Obligations.LengthMismatchIsRefused := by
  intro s t rest hin hlen
  exact (step_issue hin).trans (runCommand_lengthMismatch (s := s.latch t rest) hlen)

/-- A command gives back the buffer as it was, or is a completed PROCESS (R62). -/
theorem Effect.buffer {s : State} {i : Instr} {e e' : Engine} {m : Buffer} {c : CommandEnd}
    (h : Effect s i e e' m c) : m = s.buf ∨ (c = .completed ∧ ∃ n, i = .process n) := by
  cases h with
  | concurrent | faulted | notKeyed | keySize | ivSize | keyed | ivDerived | rewound | purged =>
    exact .inl rfl
  | processed n f m hr hi => exact .inr ⟨rfl, n, hi⟩

/-- Settles O43: of the effects of a command only that of PROCESS has a buffer of its own. -/
theorem onlyProcessWritesTheBuffer : Obligations.OnlyProcessWritesTheBuffer := by
  intro s t u rest hin h hne
  cases stepped_of_issue hin h with
  | idle hin' => cases hin.symm.trans hin'
  | powerOn rest' hin' => cases hin.symm.trans hin'
  | ran hin' hd he heff =>
    cases hin.symm.trans hin'
    rcases heff.buffer with rfl | ⟨rfl, n, rfl⟩
    · exact absurd rfl hne
    · exact ⟨rfl, n, hd⟩
  | illegal r hin' he =>
    cases hin.symm.trans hin'
    exact absurd rfl hne

/-! ### An effect is the answer of its command -/

theorem exec_notKeyed {s : State} {i : Instr} {e : Engine} (h : s.Ready i.len e)
    (hneed : i.needsKey = true) (hkey : e.keyed = false) :
    exec i s = .next (s.after e.withFault s.buf (.fault .notKeyed)) := by
  cases i with
  | keysetup n => cases hneed
  | ivsetup n => exact (State.gate_ready h _).trans (State.requireKeyed_false hkey _)
  | process n => exact (State.gate_ready h _).trans (State.requireKeyed_false hkey _)
  | rewind => exact (State.gate_ready h _).trans (State.requireKeyed_false hkey _)
  | purge => cases hneed

theorem exec_keysetup_keySize {s : State} {e : Engine} {n : Nat} (h : s.Ready n e) (hn : n ≠ 16) :
    exec (.keysetup n) s =
      .next (s.after (e.withErr ErrorKind.invalidKeySize.code) s.buf (.error .invalidKeySize)) := by
  rw [exec, execKeysetup, State.gate_ready h, if_pos hn, State.failWith_eq]

theorem exec_ivsetup_ivSize {s : State} {e : Engine} {n : Nat} (h : s.Ready n e)
    (hkey : e.keyed = true) (hn : n ≠ 8) :
    exec (.ivsetup n) s =
      .next (s.after (e.withErr ErrorKind.invalidIVSize.code) s.buf (.error .invalidIVSize)) := by
  rw [exec, execIvsetup, State.gate_ready h, State.requireKeyed_true hkey, if_pos hn,
    State.failWith_eq]

/-- `exec_cases` turned round: the command answers with any effect it can have, so it has one only. -/
theorem Effect.exec_eq {s : State} {i : Instr} {e e' : Engine} {m : Buffer} {c : CommandEnd}
    (h : Effect s i e e' m c) (hlen : s.buf.len = i.len) (he : s.engine? = some e) :
    exec i s = .next (s.after e' m c) := by
  cases h with
  | concurrent hc =>
    obtain ⟨k, hk⟩ := exec_eq_gate i s
    exact hk.trans (State.gate_concurrentUse hlen he hc)
  | faulted hc hf =>
    obtain ⟨k, hk⟩ := exec_eq_gate i s
    exact hk.trans (State.gate_faulted hlen he hc hf)
  | notKeyed hr hneed hkey => exact exec_notKeyed hr hneed hkey
  | keySize n hr hi hn => subst hi; exact exec_keysetup_keySize hr hn
  | ivSize n hr hi hkey hn => subst hi; exact exec_ivsetup_ivSize hr hkey hn
  | keyed k hr hi hk => subst hi; exact exec_keysetup_ok hr hk
  | ivDerived d hr hi hkey hd => subst hi; exact exec_ivsetup_ok hr hkey hd
  | processed n f m hr hi hkey hp => subst hi; exact exec_process_ok hr hkey hp
  | rewound hr hi hkey => subst hi; exact exec_rewind_ok hr hkey
  | purged hr hi => subst hi; exact exec_purge_ok hr

/-! ### All that a command reads -/

/-- The two states agree in everything a command reads: CMD, its buffer, the host's conduct, the engine
it goes to, and whether REWIND clears PEND. -/
structure State.SameInputs (s s' : State) : Prop where
  cmd     : s'.cmd = s.cmd
  buf     : s'.buf = s.buf
  conduct : s'.conduct = s.conduct
  engine  : s'.engine? = s.engine?
  clears  : s'.params.rewindClearsPending = s.params.rewindClearsPending

theorem State.SameInputs.refl (s : State) : s.SameInputs s := ⟨rfl, rfl, rfl, rfl, rfl⟩

/-- A latched transaction reads, of the state before it, its engine and the parameter of REWIND. -/
theorem State.sameInputs_latch {s s' : State} (u : Transaction) (rest rest' : List HostEvent)
    (hengine : s'.engines[u.engine]? = s.engines[u.engine]?)
    (hclears : s'.params.rewindClearsPending = s.params.rewindClearsPending) :
    (s.latch u rest).SameInputs (s'.latch u rest') :=
  ⟨rfl, rfl, rfl, hengine, hclears⟩

/-- REWIND reads one parameter (R222). -/
theorem Engine.rewind_congr {p p' : Params} (h : p'.rewindClearsPending = p.rewindClearsPending)
    (e : Engine) : e.rewind p' = e.rewind p := by
  rw [Engine.rewind, Engine.rewind, h]

section
variable {s s' : State} {e e' : Engine} {m : Buffer} {c : CommandEnd}

theorem State.SameInputs.ready (h : s.SameInputs s') {len : Nat} (hr : s.Ready len e) :
    s'.Ready len e := by
  obtain ⟨hlen, he, hc, hf⟩ := hr
  exact ⟨h.buf ▸ hlen, h.engine.trans he, h.conduct.trans hc, hf⟩

/-- A command has the same effect in both states. -/
theorem Effect.congr {i : Instr} (heff : Effect s i e e' m c) (h : s.SameInputs s') :
    Effect s' i e e' m c := by
  cases heff with
  | concurrent hc => rw [← h.buf]; exact .concurrent (h.conduct ▸ hc)
  | faulted hc hf => rw [← h.buf]; exact .faulted (h.conduct.trans hc) hf
  | notKeyed hr hneed hkey => rw [← h.buf]; exact .notKeyed (h.ready hr) hneed hkey
  | keySize n hr hi hn => rw [← h.buf]; exact .keySize n (h.ready hr) hi hn
  | ivSize n hr hi hkey hn => rw [← h.buf]; exact .ivSize n (h.ready hr) hi hkey hn
  | keyed k hr hi hk => rw [← h.buf] at hk ⊢; exact .keyed k (h.ready hr) hi hk
  | ivDerived d hr hi hkey hd => rw [← h.buf] at hd ⊢; exact .ivDerived d (h.ready hr) hi hkey hd
  | processed n f m hr hi hkey hp => exact .processed n f m (h.ready hr) hi hkey (h.buf ▸ hp)
  | rewound hr hi hkey =>
    rw [← h.buf, ← Engine.rewind_congr h.clears]
    exact .rewound (h.ready hr) hi hkey
  | purged hr hi => rw [← h.buf]; exact .purged (h.ready hr) hi

end

/-- The command in `s`, and in every state that agrees with `s` in what a command reads, leaves the
engine `e`, the buffer `m` and the end `c`. -/
def State.Answers (s : State) (e : Engine) (m : Buffer) (c : CommandEnd) : Prop :=
  ∀ s', s.SameInputs s' → s'.runCommand = .next (s'.after e m c)

theorem answers_of_effect {s : State} {i : Instr} {e e' : Engine} {m : Buffer} {c : CommandEnd}
    (hd : decode s.cmd = .ok i) (heff : Effect s i e e' m c) (hlen : s.buf.len = i.len)
    (he : s.engine? = some e) : s.Answers e' m c := by
  intro s' h
  rw [runCommand_ok (h.cmd ▸ hd)]
  exact (heff.congr h).exec_eq (h.buf ▸ hlen) (h.engine.trans he)

/-- A word that is no command raises the same fault in all those states. -/
theorem answers_of_decode_error {s : State} {d : DecodeError} {e : Engine}
    (hd : decode s.cmd = .error d) (hlen : s.buf.len = lenField s.cmd) (he : s.engine? = some e) :
    ∃ r, s.Answers e.withFault s.buf (.fault r) := by
  suffices hraise : ∃ r, ∀ s', s.SameInputs s' → s'.illegalCommand (lenField s.cmd) = s'.raise e r by
    obtain ⟨r, hr⟩ := hraise
    refine ⟨r, fun s' h => ?_⟩
    rw [runCommand_error (h.cmd ▸ hd), h.cmd, hr s' h, State.raise_eq, h.buf]
  by_cases hc : s.conduct = .exclusive
  · cases hf : e.fault with
    | true => exact ⟨.faulted, fun s' h =>
        State.gate_faulted (h.buf ▸ hlen) (h.engine.trans he) (h.conduct.trans hc) hf⟩
    | false => exact ⟨.illegalCommand, fun s' h =>
        State.gate_ready (h.ready ⟨hlen, he, hc, hf⟩) _⟩
  · exact ⟨.concurrentUse, fun s' h =>
      State.gate_concurrentUse (h.buf ▸ hlen) (h.engine.trans he) (h.conduct ▸ hc)⟩

/-- Past the two refusals every word, command or not, answers, and reads nothing but its inputs. -/
theorem exists_answers {s : State} {e : Engine} (hlen : s.buf.len = lenField s.cmd)
    (he : s.engine? = some e) : ∃ e' m c, s.Answers e' m c := by
  cases hd : decode s.cmd with
  | error d =>
    obtain ⟨r, hr⟩ := answers_of_decode_error hd hlen he
    exact ⟨_, _, _, hr⟩
  | ok i =>
    rcases exec_cases i s with ⟨hlen', -⟩ | ⟨-, hn, -⟩ | ⟨f, e', m, c, hlen', hf, -, heff⟩
    · exact absurd (hlen.trans (len_of_decode hd).symm) hlen'
    · cases he.symm.trans hn
    · exact ⟨e', m, c, answers_of_effect hd heff hlen' hf⟩

/-! ### Two commands to different engines (O51) -/

/-- Two commands to different engines, one after the other: each answers as it would alone from `s`. -/
theorem two_steps {s : State} {u v : Transaction} {e f : Engine} {m n : Buffer} {c d : CommandEnd}
    (hne : u.engine ≠ v.engine) (hu : (s.latch u []).Answers e m c) (hv : (s.latch v []).Answers f n d)
    (rest : List HostEvent) :
    ∃ a b : State, step { s with inbox := .issue u :: .issue v :: rest } = .next a ∧
      step a = .next b ∧ a.buf = m ∧ a.ended = some c ∧ b.buf = n ∧ b.ended = some d ∧
      b.engines = (s.engines.set u.engine e).set v.engine f := by
  refine ⟨(s.latch u (.issue v :: rest)).after e m c,
    (((s.latch u (.issue v :: rest)).after e m c).latch v rest).after f n d,
    (step_issue rfl).trans (hu _ ?_), (step_issue rfl).trans (hv _ ?_), rfl, rfl, rfl, rfl, rfl⟩
  · exact State.sameInputs_latch u _ _ rfl rfl
  · exact State.sameInputs_latch v _ _ (State.after_other _ e m c hne.symm) rfl

/-- Settles O51: neither command reads what the other writes, so both orders write the same two
engines. -/
theorem commandsToDifferentEnginesCommute : Obligations.CommandsToDifferentEnginesCommute := by
  intro s u v rest e f hne he hf hlenU hlenV
  obtain ⟨e', m, c, hu⟩ := exists_answers (s := s.latch u []) hlenU he
  obtain ⟨f', n, d, hv⟩ := exists_answers (s := s.latch v []) hlenV hf
  obtain ⟨a, b, ha, hb, hbufA, hendA, hbufB, hendB, hengines⟩ := two_steps hne hu hv rest
  obtain ⟨a', b', ha', hb', hbufA', hendA', hbufB', hendB', hengines'⟩ :=
    two_steps hne.symm hv hu rest
  refine ⟨a, b, a', b', ha, hb, ha', hb', ?_, hbufA.trans hbufB'.symm, hbufB.trans hbufA'.symm,
    hendA.trans hendB'.symm, hendB.trans hendA'.symm⟩
  rw [hengines, hengines', List.set_comm _ _ hne]

/-! ### The base address (O52) -/

/-- The base is no input of a command. -/
theorem sameButBase_runCommand {s s' : State} {b : Nat}
    (h : s' = { s with params := { s.params with engineBase := b } }) :
    Outcome.SameButBase b s.runCommand s'.runCommand := by
  have hsame : s.SameInputs s' := by rw [h]; exact ⟨rfl, rfl, rfl, rfl, rfl⟩
  by_cases hlen : s.buf.len = lenField s.cmd
  · have hlen' : s'.buf.len = lenField s'.cmd := by rw [hsame.buf, hsame.cmd, hlen]
    cases he : s.engine? with
    | none =>
      rw [runCommand_noSuchEngine hlen he, runCommand_noSuchEngine hlen' (hsame.engine.trans he)]
      rfl
    | some e =>
      obtain ⟨e', m, c, hans⟩ := exists_answers hlen he
      rw [hans s (.refl s), hans s' hsame, h]
      rfl
  · have hlen' : s'.buf.len ≠ lenField s'.cmd := by rwa [hsame.buf, hsame.cmd]
    rw [runCommand_lengthMismatch hlen, runCommand_lengthMismatch hlen']
    rfl

/-- Settles O52: no command reads the base, and neither does an idle step or a power-on. -/
theorem engineBaseIsNeverRead : Obligations.EngineBaseIsNeverRead := by
  intro s b
  generalize h : ({ s with params := { s.params with engineBase := b } } : State) = s'
  have hinbox : s'.inbox = s.inbox := by rw [← h]
  match hin : s.inbox with
  | [] =>
    rw [step_idle hin, step_idle (hinbox.trans hin)]
    exact h.symm
  | .powerOn :: rest =>
    rw [step_powerOn hin, step_powerOn (hinbox.trans hin), ← h]
    rfl
  | .issue u :: rest =>
    rw [step_issue hin, step_issue (hinbox.trans hin), ← h]
    exact sameButBase_runCommand rfl

end Sys2Proof.Machine

/-! ## Proofs: the command word (O34, O55 to O58) -/

namespace Sys2Proof

/-! ### A word and its three fields -/

theorem lenField_lt (w : Word) : lenField w < lenBound := (w.extractLsb' 8 24).isLt

/-- Words with the same fields are the same word (R81). -/
theorem eq_of_fields {v w : Word} (hrsv : rsvField v = rsvField w) (hop : opField v = opField w)
    (hlen : lenField v = lenField w) : v = w := by
  apply BitVec.eq_of_toNat_eq
  rw [toNat_eq_fields v, toNat_eq_fields w, hrsv, hop, hlen]

/-- The decoder accepts a word only with RSV = 0 and with the operation code of its command (R87). -/
theorem rsvField_opField_of_decode {w : Word} {i : Instr} (h : decode w = .ok i) :
    rsvField w = 0 ∧ opField w = i.op := by
  simp only [decode, ne_eq, ite_not] at h
  split at h
  · next hrsv =>
    refine ⟨hrsv, BitVec.eq_of_toNat_eq ?_⟩
    split at h
    case h_1 hop | h_2 hop | h_3 hop =>
      cases h
      exact hop
    case h_4 hop | h_5 hop =>
      split at h
      · cases h
        exact hop
      · cases h
    case h_6 => cases h
  · cases h

/-- A word with RSV = 0 and the operation code and the length of a command decodes to it (R87). -/
theorem decode_of_fields {w : Word} {i : Instr} (hrsv : rsvField w = 0) (hop : opField w = i.op)
    (hlen : lenField w = i.len) : decode w = .ok i := by
  cases i <;> simp [decode, hrsv, hop, hlen, Instr.op, Instr.len]

/-- Which words the decoder accepts, by their fields (R81, R87). -/
theorem decode_eq_ok_iff {w : Word} {i : Instr} :
    decode w = .ok i ↔ rsvField w = 0 ∧ opField w = i.op ∧ lenField w = i.len := by
  refine ⟨fun h => ?_, fun ⟨hrsv, hop, hlen⟩ => decode_of_fields hrsv hop hlen⟩
  obtain ⟨hrsv, hop⟩ := rsvField_opField_of_decode h
  exact ⟨hrsv, hop, (Machine.len_of_decode h).symm⟩

/-! ### The words R84 to R86 reserve -/

/-- The operation codes of the commands are 1 to 5 (R82). -/
theorem Instr.op_bounds (i : Instr) : 1 ≤ i.op.toNat ∧ i.op.toNat ≤ 5 := by
  cases i <;> simp [Instr.op]

/-- REWIND and PURGE, the commands with operation code 4 and 5, have no length (R86). -/
theorem Instr.len_of_op {i : Instr} (h : i.op = 4 ∨ i.op = 5) : i.len = 0 := by
  cases i with
  | keysetup | ivsetup | process => simp [Instr.op] at h
  | rewind | purge => rfl

/-- The decoder rejects every word that R84, R85 or R86 reserves. -/
theorem decode_reserved {w : Word} (h : rsvField w ≠ 0 ∨ opField w = 0 ∨ 6 ≤ (opField w).toNat ∨
    ((opField w = 4 ∨ opField w = 5) ∧ lenField w ≠ 0)) : ∃ d, decode w = .error d := by
  cases hd : decode w with
  | error d => exact ⟨d, rfl⟩
  | ok i =>
    exfalso
    obtain ⟨hrsv, hop, hlen⟩ := decode_eq_ok_iff.mp hd
    obtain ⟨hlow, hhigh⟩ := Instr.op_bounds i
    rw [hop, hlen] at h
    rcases h with hr | h0 | h6 | ⟨h45, hne⟩
    · exact hr hrsv
    · simp [h0] at hlow
    · omega
    · exact hne (Instr.len_of_op h45)

end Sys2Proof

namespace Sys2Proof.Machine

/-- Settles O57: the fields of the word `encode i` are 0, the operation code and the length of `i`. -/
theorem decodeInvertsEncode : Obligations.DecodeInvertsEncode := fun i hi =>
  decode_eq_ok_iff.mpr ⟨rsvField_encode i, opField_encode i, lenField_encode hi⟩

/-- Settles O58: a word that decodes to `i` has the fields of `encode i`. -/
theorem encodeInvertsDecode : Obligations.EncodeInvertsDecode := by
  intro w i h
  obtain ⟨hrsv, hop, hlen⟩ := decode_eq_ok_iff.mp h
  have hi : i.WellFormed := hlen.symm.trans_lt (lenField_lt w)
  exact ⟨hi, eq_of_fields ((rsvField_encode i).trans hrsv.symm) ((opField_encode i).trans hop.symm)
    ((lenField_encode hi).trans hlen.symm)⟩

/-- Settles O56, word by word. -/
theorem exampleWordsDecode : Obligations.ExampleWordsDecode := by
  unfold Obligations.ExampleWordsDecode
  decide

/-- Settles O55. -/
theorem stepRunsTheDecodedCommand : Obligations.StepRunsTheDecodedCommand := fun s t rest hin =>
  ⟨fun _ hd => (step_issue hin).trans (runCommand_ok (s := s.latch t rest) hd),
    fun _ hd => (step_issue hin).trans (runCommand_error (s := s.latch t rest) hd)⟩

/-- Settles O34: the decoder rejects the word, and past the gate that is IllegalCommand. -/
theorem reservedWordsAreIllegal : Obligations.ReservedWordsAreIllegal := by
  rintro s t rest e ⟨hin, hlen, he⟩ hc hf hreserved
  obtain ⟨d, hd⟩ := decode_reserved hreserved
  have hready : (s.latch t rest).Ready (lenField t.cmd) e := ⟨hlen, he, hc, hf⟩
  calc step s = (s.latch t rest).illegalCommand (lenField t.cmd) :=
        (stepRunsTheDecodedCommand s t rest hin).2 d hd
    _ = (s.latch t rest).raise e .illegalCommand := State.gate_ready hready _
    _ = .next ((s.latch t rest).after { e with fault := true } t.buf (.fault .illegalCommand)) :=
        State.raise_eq _ e _

end Sys2Proof.Machine

/-! ## Proofs: the expansion of `PROCESS*` (O54) -/

namespace Sys2Proof.Machine

/-- The chunks of a message, one after the other, are the message. -/
theorem chunks_flatten {n fuel : Nat} (hn : 0 < n) {bs : List Byte} (h : bs.length ≤ fuel) :
    (chunks n fuel bs).flatten = bs := by
  induction fuel generalizing bs with
  | zero => rw [chunks, List.eq_nil_of_length_eq_zero (Nat.le_zero.mp h), List.flatten_nil]
  | succ fuel ih =>
    cases bs with
    | nil => rfl
    | cons b bs =>
      have hdrop : ((b :: bs).drop n).length ≤ fuel := by
        rw [List.length_drop]
        omega
      rw [chunks, List.flatten_cons, ih hdrop, List.take_append_drop]

/-- No chunk is longer than it may be. -/
theorem length_le_of_mem_chunks {n fuel : Nat} {bs c : List Byte} (h : c ∈ chunks n fuel bs) :
    c.length ≤ n := by
  induction fuel generalizing bs with
  | zero => simp [chunks] at h
  | succ fuel ih =>
    cases bs with
    | nil => simp [chunks] at h
    | cons b bs =>
      rw [chunks, List.mem_cons] at h
      rcases h with rfl | h
      · exact List.length_take_le n _
      · exact ih h

/-- Settles O54: every chunk fits the length field, and the chunks in order are the message. -/
theorem longMessagesExpandToTheirBytes : Obligations.LongMessagesExpandToTheirBytes := by
  intro bs
  refine ⟨fun l hl => ?_, ?_⟩
  · obtain ⟨c, hc, rfl⟩ := List.mem_map.mp hl
    have hlt : c.length < lenBound := Nat.lt_of_le_pred (by decide) (length_le_of_mem_chunks hc)
    exact ⟨⟨hlt, rfl⟩, c.length, rfl⟩
  · have hbytes : AsmLine.bytes ∘ (fun c => AsmLine.mk (.process c.length) c) = id := rfl
    rw [Pseudo.expand, List.map_map, hbytes, List.map_id]
    exact chunks_flatten (by decide) (le_refl bs.length)

end Sys2Proof.Machine

/-! ## Proofs: the word arithmetic unit (O1 to O4) -/

namespace Sys2Proof.Machine

/-- Settles O1: below the bound the sum either stays or wraps once, to a value below its first operand. -/
theorem wrapIsTheTrueCarry : Obligations.WrapIsTheTrueCarry := by
  refine ⟨wrap_iff, fun old k cin hpos hbound => ?_⟩
  have hold : old.toNat < 2 ^ 32 := old.isLt
  rw [wrap_iff, add32c_toNat]
  by_cases hcarry : 2 ^ 32 ≤ old.toNat + k.toNat + cin.toNat
  · rw [Nat.mod_eq_sub_mod hcarry, Nat.mod_eq_of_lt (by omega)]
    omega
  · rw [Nat.mod_eq_of_lt (by omega)]
    omega

/-! ### Rotations -/

/-- Below the width of a word the rotation of R107 is the library's. -/
theorem rotl_eq_rotateLeft (a : Word) {n : Nat} (hn : n < 32) : rotl a n = a.rotateLeft n := by
  rw [BitVec.rotateLeft_def, Nat.mod_eq_of_lt hn, rotl, or32, shl, shr]

/-- Settles O3: the bits below `n` come from the top of the word, the others from `n` places below. -/
theorem rotationMovesEveryBit : Obligations.RotationMovesEveryBit := by
  intro a n j hpos hn hj
  rw [rotl_eq_rotateLeft a (by omega), BitVec.getLsbD_rotateLeft, Nat.mod_eq_of_lt (by omega)]
  by_cases hlow : j < n
  · have hindex : (j + 32 - n) % 32 = 32 - n + j := by omega
    simp [hlow, hindex]
  · have hindex : (j + 32 - n) % 32 = j - n := by omega
    simp [hlow, hindex, hj]

/-! ### Fields of a word side by side -/

theorem or32_comm (a b : Word) : or32 a b = or32 b a := BitVec.or_comm a b

/-- A value OR another moved above it is their sum, when both fit. -/
theorem or32_shl_toNat {a b : Word} {n : Nat} (ha : a.toNat < 2 ^ n) (hb : b.toNat * 2 ^ n < 2 ^ 32) :
    (or32 a (shl b n)).toNat = a.toNat + b.toNat * 2 ^ n := by
  rw [or32, BitVec.toNat_or, shl_toNat, Nat.mod_eq_of_lt hb, Nat.or_comm, Nat.mul_comm,
    ← Nat.two_pow_add_eq_or_of_lt ha, Nat.add_comm]

/-! ### Half-words -/

theorem hi16_lt (a : Word) : (hi16 a).toNat < 2 ^ 16 := by
  have := a.isLt
  rw [hi16_toNat]
  omega

theorem lo16_lt (a : Word) : (lo16 a).toNat < 2 ^ 16 := by
  rw [lo16_toNat]
  exact Nat.mod_lt _ (by decide)

theorem cat16_toNat {h l : Word} (hh : h.toNat < 2 ^ 16) (hl : l.toNat < 2 ^ 16) :
    (cat16 h l).toNat = l.toNat + h.toNat * 2 ^ 16 := by
  rw [cat16, or32_comm, or32_shl_toNat hl (by omega)]

theorem hi16_cat16 {h l : Word} (hh : h.toNat < 2 ^ 16) (hl : l.toNat < 2 ^ 16) :
    hi16 (cat16 h l) = h := by
  apply BitVec.eq_of_toNat_eq
  rw [hi16_toNat, cat16_toNat hh hl]
  omega

theorem lo16_cat16 {h l : Word} (hh : h.toNat < 2 ^ 16) (hl : l.toNat < 2 ^ 16) :
    lo16 (cat16 h l) = l := by
  apply BitVec.eq_of_toNat_eq
  rw [lo16_toNat, cat16_toNat hh hl]
  omega

/-- The corner case of R109. -/
theorem cat16_hi16_lo16 (a : Word) : cat16 (hi16 a) (lo16 a) = a := by
  apply BitVec.eq_of_toNat_eq
  rw [cat16_toNat (hi16_lt a) (lo16_lt a), hi16_toNat, lo16_toNat]
  omega

/-- The upper half-word is lost in a shift by 16. -/
theorem shl_lo16 (a : Word) : shl (lo16 a) 16 = shl a 16 := by
  apply BitVec.eq_of_toNat_eq
  rw [shl_toNat, shl_toNat, lo16_toNat]
  omega

/-- The corner case of R110: rotating by 16 swaps the half-words. -/
theorem cat16_lo16_hi16 (a : Word) : cat16 (lo16 a) (hi16 a) = rotl a 16 := by
  rw [cat16, shl_lo16, hi16, rotl]

/-- The corner case of R107: the half-words swapped twice are where they were. -/
theorem rotl_rotl_16 (a : Word) : rotl (rotl a 16) 16 = a := by
  rw [← cat16_lo16_hi16 (rotl a 16), ← cat16_lo16_hi16 a, lo16_cat16 (lo16_lt a) (hi16_lt a),
    hi16_cat16 (lo16_lt a) (hi16_lt a), cat16_hi16_lo16]

/-- Settles O2. -/
theorem halfWordsConcatenateAndSwap : Obligations.HalfWordsConcatenateAndSwap := fun a =>
  ⟨hi16_toNat a, lo16_toNat a, cat16_hi16_lo16 a, cat16_lo16_hi16 a, rotl_rotl_16 a⟩

/-! ### Bytes -/

/-- A byte as a word has the byte's value. -/
theorem setWidth_byte_toNat (b : Byte) : (b.setWidth 32 : Word).toNat = b.toNat :=
  BitVec.toNat_setWidth_of_le (by decide)

/-- A byte OR'd into a word above the word's own value is added there. -/
theorem or32_shl_byte_toNat {a : Word} {v n : Nat} (b : Byte) (ha : a.toNat = v) (hv : v < 2 ^ n)
    (hn : n ≤ 24) : (or32 a (shl (b.setWidth 32) n)).toNat = v + b.toNat * 2 ^ n := by
  have hfits : b.toNat * 2 ^ n < 2 ^ 8 * 2 ^ 24 :=
    Nat.mul_lt_mul_of_lt_of_le b.isLt (Nat.pow_le_pow_right (by decide) hn) (by decide)
  rw [or32_shl_toNat (ha ▸ hv) (by rwa [setWidth_byte_toNat]), ha, setWidth_byte_toNat]

/-- The word of four bytes is their little-endian value: each byte is added above the ones before it. -/
theorem wordOfBytes_toNat (b0 b1 b2 b3 : Byte) :
    (wordOfBytes b0 b1 b2 b3).toNat =
      b0.toNat + b1.toNat * 2 ^ 8 + b2.toNat * 2 ^ 16 + b3.toNat * 2 ^ 24 := by
  have h01 := or32_shl_byte_toNat b1 (setWidth_byte_toNat b0) b0.isLt (by decide)
  have h012 := or32_shl_byte_toNat (n := 16) b2 h01 (by omega) (by decide)
  exact or32_shl_byte_toNat b3 h012 (by omega) (by decide)

theorem extractLsb'_8_toNat (w : Word) (n : Nat) :
    (w.extractLsb' n 8).toNat = w.toNat / 2 ^ n % 2 ^ 8 := by
  rw [BitVec.extractLsb'_toNat, Nat.shiftRight_eq_div_pow]

/-- LEBYTES takes the word of four bytes apart. -/
theorem lebytes_wordOfBytes (b0 b1 b2 b3 : Byte) :
    lebytes (wordOfBytes b0 b1 b2 b3) = [b0, b1, b2, b3] := by
  have h0 := b0.isLt
  have h1 := b1.isLt
  have h2 := b2.isLt
  have h3 := b3.isLt
  simp only [lebytes, List.cons.injEq, and_true, ← BitVec.toNat_inj, extractLsb'_8_toNat, wordOfBytes_toNat]
  omega

/-- The word of a word's own bytes is the word. -/
theorem wordOfBytes_lebytes (w : Word) :
    wordOfBytes (w.extractLsb' 0 8) (w.extractLsb' 8 8) (w.extractLsb' 16 8) (w.extractLsb' 24 8) = w := by
  have := w.isLt
  apply BitVec.eq_of_toNat_eq
  rw [wordOfBytes_toNat]
  simp only [extractLsb'_8_toNat]
  omega

/-- `LE32(s, o)` inside the sequence is the word of its four bytes. -/
theorem le32_spec {s : List Byte} {o : Nat} {b0 b1 b2 b3 : Byte} (h0 : s[o]? = some b0)
    (h1 : s[o + 1]? = some b1) (h2 : s[o + 2]? = some b2) (h3 : s[o + 3]? = some b3) :
    le32 s o = some (wordOfBytes b0 b1 b2 b3) := by
  simp [le32, h0, h1, h2, h3]

/-- Settles O4: both ways by the word of four bytes. -/
theorem littleEndianWordsRoundTrip : Obligations.LittleEndianWordsRoundTrip := by
  refine ⟨fun w => ?_, fun s o b0 b1 b2 b3 h0 h1 h2 h3 => ?_⟩
  · rw [le32_spec (s := lebytes w) rfl rfl rfl rfl, wordOfBytes_lebytes]
  · exact ⟨wordOfBytes b0 b1 b2 b3, le32_spec h0 h1 h2 h3, lebytes_wordOfBytes b0 b1 b2 b3,
      wordOfBytes_toNat b0 b1 b2 b3⟩

end Sys2Proof.Machine

/-! ## Proofs: KEYSETUP (O10 to O12) -/

namespace Sys2Proof.Machine

/-! ### The key words of the buffer -/

/-- The key words of R132 are read from the first 16 bytes of the buffer. -/
theorem Buffer.keyWords_spec {m : Buffer} {b : Nat → Byte} (h : ∀ j < 16, m.read j = some (b j)) :
    m.keyWords = some ⟨wordOfBytes (b 0) (b 1) (b 2) (b 3), wordOfBytes (b 4) (b 5) (b 6) (b 7),
      wordOfBytes (b 8) (b 9) (b 10) (b 11), wordOfBytes (b 12) (b 13) (b 14) (b 15)⟩ := by
  have hword : ∀ o, o + 3 < 16 →
      m.le32 o = some (wordOfBytes (b o) (b (o + 1)) (b (o + 2)) (b (o + 3))) := fun o ho =>
    Buffer.le32_spec (h o (by omega)) (h (o + 1) (by omega)) (h (o + 2) (by omega)) (h (o + 3) ho)
  simp [Buffer.keyWords, hword]

/-! ### The initial words in half-words -/

/-- The mask of R133 leaves the upper half-word where it is. -/
theorem and32_upperMask (a : Word) : and32 a 0xFFFF0000 = shl (hi16 a) 16 := by
  apply BitVec.eq_of_getLsbD_eq
  intro i hi
  have hmask : (0xFFFF0000 : Word) = BitVec.allOnes 32 >>> 16 <<< 16 := by decide
  simp only [and32, shl, hi16, shr, hmask, BitVec.getLsbD_and, BitVec.getLsbD_shiftLeft,
    BitVec.getLsbD_ushiftRight, BitVec.getLsbD_allOnes]
  by_cases hlow : i < 16
  · simp [hlow]
  · have hback : 16 + (i - 16) = i := by omega
    simp [hlow, hback, hi]

/-- Masked and joined, or cut out and put side by side (R110). -/
theorem joinHalves_eq_cat16 (a b : Word) : joinHalves a b = cat16 (hi16 a) (lo16 b) := by
  rw [joinHalves, and32_upperMask, cat16, lo16]

/-- The odd state words of R132: the lower half of one word above the upper half of another. -/
theorem rotl_joinHalves_16 (a b : Word) : rotl (joinHalves a b) 16 = or32 (shl b 16) (shr a 16) := by
  rw [joinHalves_eq_cat16, ← cat16_lo16_hi16, lo16_cat16 (hi16_lt a) (lo16_lt b),
    hi16_cat16 (hi16_lt a) (lo16_lt b), cat16, shl_lo16, hi16]

/-- R132 with each odd word as a rotation. -/
theorem keyState_eq_rotl (k : Words4) :
    keyState k =
      ⟨k.w0, rotl (joinHalves k.w2 k.w3) 16, k.w1, rotl (joinHalves k.w3 k.w0) 16,
       k.w2, rotl (joinHalves k.w0 k.w1) 16, k.w3, rotl (joinHalves k.w1 k.w2) 16⟩ := by
  simp only [keyState, rotl_joinHalves_16]

/-- R133 with each odd word as two half-words side by side. -/
theorem keyCounter_eq_cat16 (k : Words4) :
    keyCounter k =
      ⟨rotl k.w2 16, cat16 (hi16 k.w0) (lo16 k.w1), rotl k.w3 16, cat16 (hi16 k.w1) (lo16 k.w2),
       rotl k.w0 16, cat16 (hi16 k.w2) (lo16 k.w3), rotl k.w1 16, cat16 (hi16 k.w3) (lo16 k.w0)⟩ := by
  simp only [keyCounter, joinHalves_eq_cat16]

/-! ### The key schedule -/

/-- R134, R135: the key schedule leaves the state of four rounds, its counter coupled with its X. -/
theorem Engine.keySchedule_cipher (e : Engine) (k : Words4) {w : Engine}
    (hw : w = (e.withCipher (keyState k) (keyCounter k) false).rounds 4) :
    (e.keySchedule k).x = w.x ∧ (∀ i, (e.keySchedule k).c.get i = w.c.get i ^^^ w.x.get (i + 4)) ∧
      (e.keySchedule k).carry = w.carry := by
  have hcouple : e.keySchedule k = w.couple.takeSnapshot := by rw [Engine.keySchedule, hw]
  rw [hcouple]
  refine ⟨rfl, fun i => ?_, rfl⟩
  rw [Engine.takeSnapshot_c, Engine.couple_c, coupledCounter, Words8.get_ofFn, xor32]

/-- The key schedule carries STATUS.ERR along unread. -/
theorem Engine.keySchedule_withErr (e : Engine) (k : Words4) (r : BitVec 2) :
    (e.withErr r).keySchedule k = (e.keySchedule k).withErr r := by
  obtain ⟨hx, hc, hk⟩ := Engine.rounds_congr warmupRounds
    (e := (e.withErr r).withCipher (keyState k) (keyCounter k) false)
    (e' := e.withCipher (keyState k) (keyCounter k) false) rfl rfl rfl
  apply Engine.ext <;> simp [Engine.keySchedule, hx, hc, hk]

/-! ### What KEYSETUP answers -/

/-- Settles O10: the closed forms of the initial words, then the key schedule. -/
theorem keysetupRunsTheKeySchedule : Obligations.KeysetupRunsTheKeySchedule := by
  intro s e b hready hread k odd half x c
  have hkey : s.buf.keyWords = some ⟨k 0, k 1, k 2, k 3⟩ := Buffer.keyWords_spec hread
  refine ⟨_, exec_keysetup_ok hready hkey, fun w hw => ?_⟩
  have hx : x = keyState ⟨k 0, k 1, k 2, k 3⟩ := (keyState_eq_rotl ⟨k 0, k 1, k 2, k 3⟩).symm
  have hc : c = keyCounter ⟨k 0, k 1, k 2, k 3⟩ := (keyCounter_eq_cat16 ⟨k 0, k 1, k 2, k 3⟩).symm
  rw [hx, hc] at hw
  obtain ⟨hwx, hwc, hwcarry⟩ := Engine.keySchedule_cipher e ⟨k 0, k 1, k 2, k 3⟩ hw
  obtain ⟨hmx, hmc, hmcarry⟩ := Engine.keySchedule_snapshot e ⟨k 0, k 1, k 2, k 3⟩
  obtain ⟨-, -, -, hfault⟩ := hready
  simp [hwx, hwc, hwcarry, hmx, hmc, hmcarry, hfault]

/-- Settles O12: equal bytes are equal key words, and of the engine before only FAULT and STATUS.ERR
come through the key schedule, both 0 here. -/
theorem keysetupDependsOnTheKeyOnly : Obligations.KeysetupDependsOnTheKeyOnly := by
  intro s s' e e' hready hready' hread
  have hbytes : ∀ j < 16, s.buf.read j = some (lookupCell s.buf.cells j) := fun j hj =>
    Buffer.read_of_lt (hready.1.symm ▸ hj)
  have hbytes' : ∀ j < 16, s'.buf.read j = some (lookupCell s.buf.cells j) := fun j hj =>
    (hread j hj).symm.trans (hbytes j hj)
  obtain ⟨k, hkey, hkey'⟩ : ∃ k, s.buf.keyWords = some k ∧ s'.buf.keyWords = some k :=
    ⟨_, Buffer.keyWords_spec hbytes, Buffer.keyWords_spec hbytes'⟩
  have hsame : (e'.keySchedule k).withErr 0 = (e.keySchedule k).withErr 0 := by
    obtain ⟨-, -, -, hfault⟩ := hready
    obtain ⟨-, -, -, hfault'⟩ := hready'
    rw [← Engine.keySchedule_withErr, ← Engine.keySchedule_withErr]
    apply Engine.keySchedule_congr <;> simp [hfault, hfault']
  have hexec' := exec_keysetup_ok hready' hkey'
  rw [hsame] at hexec'
  obtain ⟨hmx, hmc, hmcarry⟩ := Engine.keySchedule_snapshot e k
  refine ⟨_, exec_keysetup_ok hready hkey, hexec', ?_⟩
  simp [hmx, hmc, hmcarry]

/-- Settles O11. -/
theorem keysetupRejectsOtherLengths : Obligations.KeysetupRejectsOtherLengths := fun _ _ _ hready hn =>
  exec_keysetup_keySize hready hn

end Sys2Proof.Machine

/-! ## Proofs: IVSETUP (O13 to O16) -/

namespace Sys2Proof.Machine

/-! ### The IV words of the buffer -/

/-- The IV words of R152, each pair of half-words side by side. -/
theorem ivWordsOf_eq_cat16 (d0 d2 : Word) :
    ivWordsOf d0 d2 = ⟨d0, cat16 (hi16 d2) (hi16 d0), d2, cat16 (lo16 d2) (lo16 d0)⟩ := by
  have hhigh : or32 (shr d0 16) (and32 d2 0xFFFF0000) = cat16 (hi16 d2) (hi16 d0) := by
    rw [and32_upperMask, or32_comm, cat16, hi16, hi16]
  have hlow : or32 (shl d2 16) (and32 d0 0x0000FFFF) = cat16 (lo16 d2) (lo16 d0) := by
    rw [cat16, shl_lo16, lo16]
  rw [ivWordsOf, hhigh, hlow]

/-- The IV words are read from the first 8 bytes of the buffer (R152). -/
theorem Buffer.ivWords_spec {m : Buffer} {b : Nat → Byte} (h : ∀ j < 8, m.read j = some (b j)) :
    m.ivWords =
      some (ivWordsOf (wordOfBytes (b 0) (b 1) (b 2) (b 3)) (wordOfBytes (b 4) (b 5) (b 6) (b 7))) := by
  have hword : ∀ o, o + 3 < 8 →
      m.le32 o = some (wordOfBytes (b o) (b (o + 1)) (b (o + 2)) (b (o + 3))) := fun o ho =>
    Buffer.le32_spec (h o (by omega)) (h (o + 1) (by omega)) (h (o + 2) (by omega)) (h (o + 3) ho)
  simp [Buffer.ivWords, hword]

/-! ### The state IVSETUP derives -/

/-- R153 word by word: the IV words are used twice. -/
theorem ivCounter_eq (mc : Words8) (d : Words4) :
    ivCounter mc d =
      ⟨mc.w0 ^^^ d.w0, mc.w1 ^^^ d.w1, mc.w2 ^^^ d.w2, mc.w3 ^^^ d.w3,
       mc.w4 ^^^ d.w0, mc.w5 ^^^ d.w1, mc.w6 ^^^ d.w2, mc.w7 ^^^ d.w3⟩ := rfl

/-- R153, R154: the counter of the IV with X and CARRY from the snapshot, then four rounds. -/
theorem Engine.ivDerive_eq (e : Engine) (d : Words4) :
    e.ivDerive d = (e.withCipher e.mx (ivCounter e.mc d) e.mcarry).rounds 4 := by
  rw [Engine.ivDerive]

/-- The engines hold the same master snapshot. -/
structure Engine.SameSnapshot (e e' : Engine) : Prop where
  mx     : e'.mx = e.mx
  mc     : e'.mc = e.mc
  mcarry : e'.mcarry = e.mcarry

theorem Engine.SameSnapshot.refl (e : Engine) : e.SameSnapshot e := ⟨rfl, rfl, rfl⟩

theorem Engine.SameSnapshot.trans {e e' e'' : Engine} (h : e.SameSnapshot e')
    (h' : e'.SameSnapshot e'') : e.SameSnapshot e'' :=
  ⟨h'.mx.trans h.mx, h'.mc.trans h.mc, h'.mcarry.trans h.mcarry⟩

/-- IVSETUP changes no snapshot (R155). -/
theorem Engine.sameSnapshot_ivDerive (e : Engine) (d : Words4) (r : BitVec 2) :
    e.SameSnapshot ((e.ivDerive d).withErr r) := by
  constructor <;> simp

/-- What IVSETUP derives depends on the snapshot and the IV only (R156). -/
theorem Engine.ivDerive_congr {e e' : Engine} (h : e.SameSnapshot e') (d : Words4) :
    (e'.ivDerive d).x = (e.ivDerive d).x ∧ (e'.ivDerive d).c = (e.ivDerive d).c ∧
      (e'.ivDerive d).carry = (e.ivDerive d).carry := by
  rw [Engine.ivDerive_eq, Engine.ivDerive_eq]
  apply Engine.rounds_congr <;> simp [h.mx, h.mc, h.mcarry]

/-! ### What IVSETUP answers -/

/-- Settles O13: the IV words in their CAT16 form, then the counter of R153 and four rounds. -/
theorem ivsetupDerivesFromTheSnapshot : Obligations.IvsetupDerivesFromTheSnapshot := by
  intro s e b hready hkey hread d0 d2 d1 d3 c
  have hiv : s.buf.ivWords = some ⟨d0, d1, d2, d3⟩ :=
    (Buffer.ivWords_spec hread).trans (congrArg some (ivWordsOf_eq_cat16 d0 d2))
  have hc : c = ivCounter e.mc ⟨d0, d1, d2, d3⟩ := (ivCounter_eq e.mc ⟨d0, d1, d2, d3⟩).symm
  refine ⟨_, exec_ivsetup_ok hready hkey hiv, fun w hw => ?_, ?_⟩
  · have hderive : e.ivDerive ⟨d0, d1, d2, d3⟩ = w := by
      rw [Engine.ivDerive_eq, hw, hc, Engine.withCipher]
    rw [hderive]
    exact ⟨w.withErr_x 0, w.withErr_c 0, w.withErr_carry 0⟩
  · obtain ⟨-, -, -, hfault⟩ := hready
    simp [hkey, hfault]

/-- Settles O14. -/
theorem ivsetupChecksKeyThenLength : Obligations.IvsetupChecksKeyThenLength := fun _ _ _ hready =>
  ⟨exec_notKeyed hready rfl, exec_ivsetup_ivSize hready⟩

/-! ### The all-zero IV (O16) -/

/-- The all-zero IV leaves the counter at MC (R157). -/
theorem ivCounter_zero (mc : Words8) : ivCounter mc (ivWordsOf 0 0) = mc := by
  have hzero : ivWordsOf 0 0 = ⟨0, 0, 0, 0⟩ := by decide
  rw [hzero, ivCounter_eq]
  simp

/-- With PEND empty the stream is the blocks EXTRACT gives after 1, 2, ... rounds. -/
theorem Engine.streamByte_withPend_nil (e : Engine) (n : Nat) :
    (e.withPend []).streamByte n = (extract (e.rounds (n / 16 + 1)).x).getD (n % 16) 0 := by
  rw [Engine.streamByte, Engine.withPend_pend, List.length_nil, if_neg (Nat.not_lt_zero n)]
  simp only [Nat.sub_zero, extract_rounds_pend]

/-- The stream after `r` rounds is the stream before them less its first `r` blocks. -/
theorem Engine.streamByte_of_rounds {e f : Engine} (r : Nat) (hx : f.x = (e.rounds r).x)
    (hc : f.c = (e.rounds r).c) (hk : f.carry = (e.rounds r).carry) (n : Nat) :
    (f.withPend []).streamByte n = (e.withPend []).streamByte (n + 16 * r) := by
  have hblock : (n + 16 * r) / 16 + 1 = r + (n / 16 + 1) := by omega
  have hindex : (n + 16 * r) % 16 = n % 16 := by omega
  rw [Engine.streamByte_withPend_nil, Engine.streamByte_withPend_nil, hblock, hindex,
    Engine.rounds_add r, (Engine.rounds_congr (n / 16 + 1) hx hc hk).1]

/-- Settles O16: the counter of the all-zero IV is MC, so IVSETUP runs four rounds from the snapshot. -/
theorem zeroIvSkipsFourBlocks : Obligations.ZeroIvSkipsFourBlocks := by
  intro s e hready hkey hread
  have hiv : s.buf.ivWords = some (ivWordsOf 0 0) := Buffer.ivWords_spec hread
  have hderive : e.ivDerive (ivWordsOf 0 0) = (e.withCipher e.mx e.mc e.mcarry).rounds 4 := by
    rw [Engine.ivDerive_eq, ivCounter_zero]
  refine ⟨_, exec_ivsetup_ok hready hkey hiv, fun n => ?_⟩
  rw [hderive]
  exact Engine.streamByte_of_rounds 4 (Engine.withErr_x _ 0) (Engine.withErr_c _ 0)
    (Engine.withErr_carry _ 0) n

/-! ### IVSETUP twice in a run (O15) -/

theorem inbox_of_step_issue {s t : State} {u : Transaction} {rest : List HostEvent}
    (hin : s.inbox = .issue u :: rest) (h : step s = .next t) : t.inbox = rest := by
  cases stepped_of_issue hin h with
  | idle hin' => cases hin.symm.trans hin'
  | powerOn rest' hin' => cases hin.symm.trans hin'
  | ran hin' => cases hin.symm.trans hin'; rfl
  | illegal r hin' => cases hin.symm.trans hin'; rfl

/-- No step adds or removes an engine (R258). -/
theorem length_engines_of_step {s t : State} (h : step s = .next t) :
    t.engines.length = s.engines.length := by
  cases stepped_of_step h with
  | idle | powerOn | ran | illegal => simp

/-- An engine that is there is there after any step. -/
theorem exists_engine_of_step {s t : State} {k : Nat} {e : Engine} (h : step s = .next t)
    (he : s.engines[k]? = some e) : ∃ e', t.engines[k]? = some e' := by
  obtain ⟨hlt, -⟩ := List.getElem?_eq_some_iff.mp he
  exact ⟨_, List.getElem?_eq_getElem (length_engines_of_step h ▸ hlt)⟩

/-- A completed IVSETUP leaves what it derives from the engine before it. -/
theorem ivDerive_of_step {s t : State} {u : Transaction} {rest : List HostEvent} {f : Engine}
    (hin : s.inbox = .issue u :: rest) (hd : decode u.cmd = .ok (.ivsetup 8)) (h : step s = .next t)
    (hend : t.ended = some .completed) (hf : t.engines[u.engine]? = some f) :
    ∃ e d, s.engines[u.engine]? = some e ∧ u.buf.ivWords = some d ∧ f = (e.ivDerive d).withErr 0 := by
  cases stepped_of_issue hin h with
  | idle hin' => cases hin.symm.trans hin'
  | powerOn rest' hin' => cases hin.symm.trans hin'
  | illegal r hin' => cases hend
  | @ran _ _ i e e' m c hin' hd' he heff =>
    cases hin.symm.trans hin'
    cases hd.symm.trans hd'
    cases hend
    have hleft := State.after_engine? (s := s.latch u rest) he e' m .completed
    cases hf.symm.trans hleft
    cases heff with
    | ivDerived d _ _ _ hiv => exact ⟨e, d, he, hiv, rfl⟩
    | keyed k _ hi => cases hi
    | processed n _ _ _ hi => cases hi
    | rewound _ hi => cases hi
    | purged _ hi => cases hi

/-- A command that is neither KEYSETUP nor PURGE keeps every snapshot (R34). -/
theorem sameSnapshot_of_step {s t : State} {u : Transaction} {rest : List HostEvent} {k : Nat}
    {e e' : Engine} (hin : s.inbox = .issue u :: rest)
    (hu : decode u.cmd ≠ .ok .purge ∧ ∀ n, decode u.cmd ≠ .ok (.keysetup n)) (h : step s = .next t)
    (he : s.engines[k]? = some e) (he' : t.engines[k]? = some e') : e.SameSnapshot e' := by
  obtain ⟨hpurge, hkeysetup⟩ := hu
  rcases snapshotHasTwoWriters s t k e e' h he he' with
    ⟨hmx, hmc, hmcarry⟩ | ⟨rest', hin'⟩ | ⟨v, rest', hin', -, -, hd⟩
  · exact ⟨hmx, hmc, hmcarry⟩
  · cases hin.symm.trans hin'
  · cases hin.symm.trans hin'
    exact hd.elim (absurd · (hkeysetup 16)) (absurd · hpurge)

/-- A run through transactions that are neither KEYSETUP nor PURGE keeps every snapshot, and comes to
the host's actions after them. -/
theorem sameSnapshot_of_run {mid : List Transaction} {rest : List HostEvent} {n k : Nat} {s z : State}
    {e : Engine}
    (hmid : ∀ t ∈ mid, decode t.cmd ≠ .ok .purge ∧ ∀ n, decode t.cmd ≠ .ok (.keysetup n))
    (hin : s.inbox = mid.map HostEvent.issue ++ rest)
    (h : Sys2Proof.core.run (mid.length + n) s = .next z) (he : s.engines[k]? = some e) :
    ∃ t f, t.inbox = rest ∧ Sys2Proof.core.run n t = .next z ∧ t.engines[k]? = some f ∧
      e.SameSnapshot f := by
  induction mid generalizing s e with
  | nil => exact ⟨s, e, hin, Nat.zero_add n ▸ h, he, .refl e⟩
  | cons u mid ih =>
    rw [List.length_cons, Nat.add_right_comm] at h
    obtain ⟨a, ha, hrun⟩ := run_succ_next h
    obtain ⟨e', he'⟩ := exists_engine_of_step ha he
    have hsame : e.SameSnapshot e' :=
      sameSnapshot_of_step hin (hmid u List.mem_cons_self) ha he he'
    obtain ⟨t, f, hrest, hrun', hf, hsame'⟩ :=
      ih (fun t ht => hmid t (List.mem_cons_of_mem u ht)) (inbox_of_step_issue hin ha) hrun he'
    exact ⟨t, f, hrest, hrun', hf, hsame.trans hsame'⟩

/-- A run of one step is that step. -/
theorem step_of_run_one {s t : State} (h : Sys2Proof.core.run 1 s = .next t) : step s = .next t := by
  obtain ⟨a, ha, hrun⟩ := run_succ_next h
  cases hrun
  exact ha

/-- Settles O15: both IVSETUP derive from one IV and, as nothing between them writes it, one snapshot. -/
theorem ivsetupIsIdempotentOverRuns : Obligations.IvsetupIsIdempotentOverRuns := by
  intro s a z iv mid ea ez hd hmid hin hrunA hendA hrunZ hendZ hea hez
  have hstepA : step s = .next a := step_of_run_one hrunA
  obtain ⟨e, d, -, hiv, rfl⟩ := ivDerive_of_step hin hd hstepA hendA hea
  rw [run_succ hstepA] at hrunZ
  obtain ⟨t, f, hlast, hrunT, hf, hsame⟩ :=
    sameSnapshot_of_run hmid (inbox_of_step_issue hin hstepA) hrunZ hea
  obtain ⟨f', d', hf', hiv', rfl⟩ := ivDerive_of_step hlast hd (step_of_run_one hrunT) hendZ hez
  cases hf.symm.trans hf'
  cases hiv.symm.trans hiv'
  simpa using Engine.ivDerive_congr ((e.sameSnapshot_ivDerive d 0).trans hsame) d

end Sys2Proof.Machine

/-! ## Proofs: NEXTSTATE (O5 to O8) -/

namespace Sys2Proof.Machine

/-! ### What a round leaves in X, C and CARRY -/

theorem Engine.nextState_x (e : Engine) :
    e.nextState.x = stateUpdate (gValues e.x e.nextState.c) := by
  rw [Engine.nextState_eq, Engine.withCipher_x, Engine.withCipher_c]

theorem Engine.nextState_c (e : Engine) : e.nextState.c = counterUpdate e.c e.carry := by
  rw [Engine.nextState_eq, Engine.withCipher_c]

theorem Engine.nextState_carry (e : Engine) : e.nextState.carry = carryInto e.c e.carry 8 := by
  rw [Engine.nextState_eq, Engine.withCipher_carry]

/-! ### The counter chain -/

@[simp] theorem carryInto_zero (c : Words8) (carry : Bool) : carryInto c carry 0 = carry := (rfl)

/-- R171: word `i` of the chain adds its constant and the carry into it. -/
theorem counterUpdate_get (c : Words8) (carry : Bool) (i : Fin 8) :
    (counterUpdate c carry).get i =
      add32c (c.get i) (counterConstants.get i) (carryInto c carry i.val) := by
  rw [counterUpdate, Words8.get_ofFn]

/-- R171: the carry out of word `i` is the WRAP of its update. -/
theorem carryInto_succ (c : Words8) (carry : Bool) (i : Fin 8) :
    carryInto c carry (i.val + 1) = wrap ((counterUpdate c carry).get i) (c.get i) := by
  rw [counterUpdate_get, carryInto, Fin.ofNat_val_eq_self]

/-- Settles O5: the carries of the chain are `carryInto`. -/
theorem counterChainPropagatesCarries : Obligations.CounterChainPropagatesCarries := by
  intro e
  refine ⟨carryInto e.c e.carry, carryInto_zero e.c e.carry, fun i => ?_, e.nextState_carry⟩
  rw [Engine.nextState_c]
  exact ⟨counterUpdate_get e.c e.carry i, carryInto_succ e.c e.carry i⟩

/-! ### The counter chain as one addition (O6) -/

/-- The value of the first `n` words of a file, word 0 the least significant. -/
def lowWordsValue (v : Words8) : Nat → Nat
  | 0 => 0
  | n + 1 => lowWordsValue v n + 2 ^ (32 * n) * (v.get (Fin.ofNat 8 n)).toNat

theorem wordsValue_eq_lowWordsValue (v : Words8) : wordsValue v = lowWordsValue v 8 := by
  simp only [wordsValue, Words8.toList, List.foldr, lowWordsValue, Words8.get, Fin.ofNat]
  omega

theorem lowWordsValue_lt (v : Words8) (n : Nat) : lowWordsValue v n < 2 ^ (32 * n) := by
  induction n with
  | zero => simp [lowWordsValue]
  | succ n ih =>
    have hword : (v.get (Fin.ofNat 8 n)).toNat + 1 ≤ 2 ^ 32 := (v.get (Fin.ofNat 8 n)).isLt
    calc lowWordsValue v (n + 1)
        < 2 ^ (32 * n) * ((v.get (Fin.ofNat 8 n)).toNat + 1) := by
          rw [lowWordsValue, Nat.mul_succ]
          omega
      _ ≤ 2 ^ (32 * n) * 2 ^ 32 := Nat.mul_le_mul_left _ hword
      _ = 2 ^ (32 * (n + 1)) := by rw [← Nat.pow_add, Nat.mul_succ]

theorem wordsValue_lt (v : Words8) : wordsValue v < 2 ^ 256 :=
  wordsValue_eq_lowWordsValue v ▸ lowWordsValue_lt v 8

/-- Within the bound of R103 the sum and its WRAP are together the exact sum. -/
theorem add32c_add_wrap (old k : Word) (cin : Bool) (hpos : 1 ≤ k.toNat)
    (hbound : k.toNat ≤ 2 ^ 32 - 2) :
    (add32c old k cin).toNat + 2 ^ 32 * (wrap (add32c old k cin) old).toNat =
      old.toNat + k.toNat + cin.toNat := by
  have hcin := cin.toNat_le
  have hold := old.isLt
  have hcarry := wrapIsTheTrueCarry.2 old k cin (by omega) (by omega)
  by_cases hover : 2 ^ 32 ≤ old.toNat + k.toNat + cin.toNat
  · rw [hcarry.mpr hover, Bool.toNat_true, add32c_toNat]
    omega
  · rw [Bool.eq_false_iff.mpr (mt hcarry.mp hover), Bool.toNat_false, add32c_toNat]
    omega

/-- R170: every counter constant is within the bound of R103, whatever the carry added with it. -/
theorem counterConstants_bounds (i : Fin 8) :
    1 ≤ (counterConstants.get i).toNat ∧ (counterConstants.get i).toNat ≤ 2 ^ 32 - 2 := by
  revert i
  decide

/-- Each turn of the chain is exact: the new word and the carry out of it are its whole sum. -/
theorem counterUpdate_add_carry (c : Words8) (carry : Bool) (i : Fin 8) :
    ((counterUpdate c carry).get i).toNat + 2 ^ 32 * (carryInto c carry (i.val + 1)).toNat =
      (c.get i).toNat + (counterConstants.get i).toNat + (carryInto c carry i.val).toNat := by
  obtain ⟨hpos, hbound⟩ := counterConstants_bounds i
  rw [carryInto_succ, counterUpdate_get]
  exact add32c_add_wrap (c.get i) (counterConstants.get i) (carryInto c carry i.val) hpos hbound

/-- The invariant of the chain: the words updated so far and the carry out of the last of them are the
exact sum of the words so far. -/
theorem lowWordsValue_counterUpdate (c : Words8) (carry : Bool) {n : Nat} (hn : n ≤ 8) :
    lowWordsValue (counterUpdate c carry) n + 2 ^ (32 * n) * (carryInto c carry n).toNat =
      lowWordsValue c n + lowWordsValue counterConstants n + carry.toNat := by
  induction n with
  | zero => simp [lowWordsValue]
  | succ n ih =>
    have hindex : (Fin.ofNat 8 n).val = n := Nat.mod_eq_of_lt hn
    have hturn := counterUpdate_add_carry c carry (Fin.ofNat 8 n)
    rw [hindex] at hturn
    simp only [lowWordsValue]
    linear_combination ih (by omega) + 2 ^ (32 * n) * hturn

/-- R173 (a): the new words and the carry out of word 7 are the exact sum. -/
theorem wordsValue_counterUpdate (c : Words8) (carry : Bool) :
    wordsValue (counterUpdate c carry) + 2 ^ 256 * (carryInto c carry 8).toNat =
      wordsValue c + wordsValue counterConstants + carry.toNat := by
  simpa only [wordsValue_eq_lowWordsValue] using lowWordsValue_counterUpdate c carry (Nat.le_refl 8)

/-- Settles O6: the new words are below `2^256`, so the exact sum fixes both them and the carry. -/
theorem counterUpdateIs256BitAddition : Obligations.CounterUpdateIs256BitAddition := by
  intro e
  have hsum := wordsValue_counterUpdate e.c e.carry
  have hlt := wordsValue_lt (counterUpdate e.c e.carry)
  rw [Engine.nextState_c, Engine.nextState_carry, ← hsum]
  constructor
  · rw [Nat.add_mul_mod_self_left, Nat.mod_eq_of_lt hlt]
  · cases carryInto e.c e.carry 8
    · simpa using hlt
    · simp

/-! ### The g-function (O7) -/

theorem mul_le_of_halves {a b : Nat} (ha : a < 2 ^ 16) (hb : b < 2 ^ 16) :
    a * b ≤ (2 ^ 16 - 1) * (2 ^ 16 - 1) :=
  Nat.mul_le_mul (Nat.le_sub_one_of_lt ha) (Nat.le_sub_one_of_lt hb)

/-- The product of two half-words fits in a word. -/
theorem mul32_toNat_of_halves {a b : Word} (ha : a.toNat < 2 ^ 16) (hb : b.toNat < 2 ^ 16) :
    (mul32 a b).toNat = a.toNat * b.toNat := by
  have hproduct := mul_le_of_halves ha hb
  rw [mul32_toNat, Nat.mod_eq_of_lt (by omega)]

/-- The sum inside R174 does not overflow either. -/
theorem crossSum_toNat {a b : Word} (ha : a.toNat < 2 ^ 16) (hb : b.toNat < 2 ^ 16) :
    (add32 (shr (mul32 a a) 17) (mul32 a b)).toNat = a.toNat * a.toNat / 2 ^ 17 + a.toNat * b.toNat := by
  have hsquare := mul_le_of_halves ha ha
  have hcross := mul_le_of_halves ha hb
  rw [add32_toNat, shr_toNat, mul32_toNat_of_halves ha ha, mul32_toNat_of_halves ha hb,
    Nat.mod_eq_of_lt (by omega)]

/-- The square of `a + b * 2^16` shifted down by 32, as R174 takes it from the two halves. -/
theorem square_div_of_halves (a b : Nat) :
    (a + b * 2 ^ 16) * (a + b * 2 ^ 16) / 2 ^ 32 = (a * a / 2 ^ 17 + a * b) / 2 ^ 15 + b * b := by
  have hsquare : (a + b * 2 ^ 16) * (a + b * 2 ^ 16) = a * a + 2 ^ 17 * (a * b) + 2 ^ 32 * (b * b) := by
    ring
  rw [hsquare]
  omega

/-- A word is its half-words side by side. -/
theorem toNat_eq_halves (u : Word) : u.toNat = (lo16 u).toNat + (hi16 u).toNat * 2 ^ 16 := by
  rw [← cat16_toNat (hi16_lt u) (lo16_lt u), cat16_hi16_lo16]

/-- R174: the sum of the shifted cross terms and the square of the upper half-word is the high half of
the whole square. -/
theorem highHalf_of_square (u : Word) :
    add32 (shr (add32 (shr (mul32 (lo16 u) (lo16 u)) 17) (mul32 (lo16 u) (hi16 u))) 15)
        (mul32 (hi16 u) (hi16 u)) = BitVec.ofNat 32 (u.toNat * u.toNat / 2 ^ 32) := by
  rw [add32, shr_toNat, crossSum_toNat (lo16_lt u) (hi16_lt u),
    mul32_toNat_of_halves (hi16_lt u) (hi16_lt u), ← square_div_of_halves, ← toNat_eq_halves]

/-- MUL32 of a word with itself is the low half of its square (R104). -/
theorem lowHalf_of_square (u : Word) : mul32 u u = BitVec.ofNat 32 (u.toNat * u.toNat % 2 ^ 32) := by
  apply BitVec.eq_of_toNat_eq
  rw [mul32_toNat, BitVec.toNat_ofNat, Nat.mod_mod]

/-- Settles O7: the two operands of the XOR in R174 are the two halves of the square. -/
theorem gIsHighXorLowOfTheSquare : Obligations.GIsHighXorLowOfTheSquare := fun u => by
  rw [gFunction, xor32, highHalf_of_square, lowHalf_of_square]

/-! ### The new state words (O8) -/

/-- R177 word by word: even words with two 16-bit rotations, odd words with one 8-bit rotation. -/
theorem stateUpdate_ofFn (g : Fin 8 → Word) :
    stateUpdate (.ofFn g) =
      ⟨g 0 + rotl (g 7) 16 + rotl (g 6) 16, g 1 + rotl (g 0) 8 + g 7,
       g 2 + rotl (g 1) 16 + rotl (g 0) 16, g 3 + rotl (g 2) 8 + g 1,
       g 4 + rotl (g 3) 16 + rotl (g 2) 16, g 5 + rotl (g 4) 8 + g 3,
       g 6 + rotl (g 5) 16 + rotl (g 4) 16, g 7 + rotl (g 6) 8 + g 5⟩ := by
  simp only [stateUpdate, Words8.get_ofFn, add32_eq_add]
  rfl

/-- Settles O8. -/
theorem roundUpdatesTheStateWords : Obligations.RoundUpdatesTheStateWords := by
  intro e g hg
  have hvalues : gValues e.x e.nextState.c = .ofFn g := by
    simp only [gValues, add32_eq_add, ← hg]
  simp [Engine.nextState_x, hvalues, stateUpdate_ofFn]

end Sys2Proof.Machine

/-! ## Proofs: EXTRACT and PROCESS (O9, O17, O19 to O25) -/

namespace Sys2Proof.Machine

/-! ### The keystream block (O9) -/

/-- R112: byte `i` of a word, low byte first. -/
theorem getD_lebytes (w : Word) {i : Nat} (hi : i < 4) :
    (lebytes w).getD i 0 = BitVec.ofNat 8 (w.toNat / 2 ^ (8 * i) % 256) := by
  have hbyte : (lebytes w).getD i 0 = w.extractLsb' (8 * i) 8 := by
    match i, hi with
    | 0, _ | 1, _ | 2, _ | 3, _ => rfl
  apply BitVec.eq_of_toNat_eq
  rw [hbyte, extractLsb'_8_toNat, BitVec.toNat_ofNat]
  omega

/-- Words written out one after the other: byte `j` of all of them is byte `j mod 4` of word `j div 4`. -/
theorem getD_flatMap_lebytes (ws : List Word) {j : Nat} (hj : j < 4 * ws.length) :
    (ws.flatMap lebytes).getD j 0 = (lebytes (ws.getD (j / 4) 0)).getD (j % 4) 0 := by
  induction ws generalizing j with
  | nil => simp at hj
  | cons w ws ih =>
    have hlen : (lebytes w).length = 4 := rfl
    rw [List.length_cons] at hj
    rw [List.flatMap_cons]
    by_cases hfirst : j < 4
    · rw [List.getD_append _ _ _ _ (by omega), Nat.div_eq_of_lt hfirst, Nat.mod_eq_of_lt hfirst,
        List.getD_cons_zero]
    · have hword : j / 4 = (j - 4) / 4 + 1 := by omega
      have hindex : j % 4 = (j - 4) % 4 := by omega
      rw [List.getD_append_right _ _ _ _ (by omega), hlen, ih (by omega), hword, hindex,
        List.getD_cons_succ]

/-- R190, R191: the block is the four output words written out. -/
theorem extract_eq_flatMap (x : Words8) :
    extract x =
      [x.w0 ^^^ (x.w5 >>> 16) ^^^ (x.w3 <<< 16), x.w2 ^^^ (x.w7 >>> 16) ^^^ (x.w5 <<< 16),
       x.w4 ^^^ (x.w1 >>> 16) ^^^ (x.w7 <<< 16), x.w6 ^^^ (x.w3 >>> 16) ^^^ (x.w1 <<< 16)].flatMap
        lebytes := rfl

/-- Settles O9: a byte of the block is a byte of one of the four words, and that is a byte of its value. -/
theorem extractSerializesTheOutputWords : Obligations.ExtractSerializesTheOutputWords := by
  intro x o h0 h1 h2 h3
  refine ⟨length_extract x, fun j hj => ?_⟩
  have hblock : extract x = ((List.range 4).map o).flatMap lebytes := by
    rw [extract_eq_flatMap, ← h0, ← h1, ← h2, ← h3]
    rfl
  have hlen : ((List.range 4).map o).length = 4 := rfl
  have hword : ((List.range 4).map o).getD (j / 4) 0 = o (j / 4) := by
    rw [List.getD_eq_getElem _ _ (by omega), List.getElem_map, List.getElem_range]
  rw [hblock, getD_flatMap_lebytes _ (by omega), hword, getD_lebytes _ (Nat.mod_lt j (by decide))]

/-! ### The stream of an engine (R200) -/

namespace Engine

variable (e : Engine)

theorem streamByte_of_lt {n : Nat} (h : n < e.pend.length) : e.streamByte n = e.pend.getD n 0 := by
  rw [streamByte, if_pos h]

theorem streamByte_of_ge {n : Nat} (h : e.pend.length ≤ n) :
    e.streamByte n =
      (extract (e.rounds ((n - e.pend.length) / 16 + 1)).x).getD ((n - e.pend.length) % 16) 0 := by
  rw [streamByte, if_neg (Nat.not_lt.mpr h)]

/-- The `k` bytes of the stream from byte `n` on. -/
def streamSlice (n k : Nat) : List Byte := (List.range k).map fun j => e.streamByte (n + j)

@[simp] theorem length_streamSlice (n k : Nat) : (e.streamSlice n k).length = k := by
  simp [streamSlice]

theorem getD_streamSlice (n : Nat) {k j : Nat} (h : j < k) :
    (e.streamSlice n k).getD j 0 = e.streamByte (n + j) := by
  rw [List.getD_eq_getElem _ _ (by simpa using h)]
  simp [streamSlice]

/-- The stream begins with PEND. -/
theorem drop_pend_eq_streamSlice (n : Nat) :
    e.pend.drop n = e.streamSlice n (e.pend.length - n) := by
  refine List.ext_getElem (by simp) fun j h _ => ?_
  have hj : n + j < e.pend.length := by
    rw [List.length_drop] at h
    omega
  simp [streamSlice, e.streamByte_of_lt hj, hj]

/-- After PEND the stream is the blocks, the block of round `r + 1` after `r` others. -/
theorem drop_block_eq_streamSlice (r n : Nat) :
    (extract (e.rounds (r + 1)).x).drop n =
      e.streamSlice (e.pend.length + 16 * r + n) (16 - n) := by
  refine List.ext_getElem (by simp) fun j h _ => ?_
  have hj : n + j < 16 := by
    rw [List.length_drop, length_extract] at h
    omega
  have hblock : (e.pend.length + 16 * r + n + j - e.pend.length) / 16 = r := by omega
  have hindex : (e.pend.length + 16 * r + n + j - e.pend.length) % 16 = n + j := by omega
  have hlt : n + j < (extract (e.rounds (r + 1)).x).length := by rwa [length_extract]
  simp only [streamSlice, List.getElem_map, List.getElem_range, List.getElem_drop]
  rw [e.streamByte_of_ge (by omega), hblock, hindex, List.getD_eq_getElem _ _ hlt]

/-! ### The engine after some bytes of its stream -/

/-- R204: the rounds that `n` bytes of the stream take. -/
def roundsFor (n : Nat) : Nat := (n - e.pend.length + 15) / 16

/-- R205: the bytes that are left of PEND and of the blocks when `n` bytes are used. -/
def pendLenAfter (n : Nat) : Nat := e.pend.length + 16 * e.roundsFor n - n

/-- The engine once `n` bytes of its stream are used: the rounds these take, and pending what is left of
the bytes they give. -/
def advance (n : Nat) : Engine :=
  (e.rounds (e.roundsFor n)).withPend (e.streamSlice n (e.pendLenAfter n))

@[simp] theorem advance_x (n : Nat) : (e.advance n).x = (e.rounds (e.roundsFor n)).x := by
  rw [advance, withPend_x]
@[simp] theorem advance_c (n : Nat) : (e.advance n).c = (e.rounds (e.roundsFor n)).c := by
  rw [advance, withPend_c]
@[simp] theorem advance_carry (n : Nat) : (e.advance n).carry = (e.rounds (e.roundsFor n)).carry := by
  rw [advance, withPend_carry]
@[simp] theorem advance_pend (n : Nat) :
    (e.advance n).pend = e.streamSlice n (e.pendLenAfter n) := by
  rw [advance, withPend_pend]
@[simp] theorem advance_keyed (n : Nat) : (e.advance n).keyed = e.keyed := by
  rw [advance, withPend_keyed, rounds_keyed]
@[simp] theorem advance_fault (n : Nat) : (e.advance n).fault = e.fault := by
  rw [advance, withPend_fault, rounds_fault]

/-- R196: bytes that PEND holds take no round and leave its tail. -/
theorem advance_of_le {n : Nat} (h : n ≤ e.pend.length) :
    e.advance n = e.withPend (e.pend.drop n) := by
  have hrounds : e.roundsFor n = 0 := by
    rw [roundsFor]
    omega
  have hlen : e.pendLenAfter n = e.pend.length - n := by
    rw [pendLenAfter, hrounds]
    omega
  rw [advance, hrounds, hlen, rounds_zero, ← drop_pend_eq_streamSlice]

theorem withPend_withPend (p q : List Byte) : (e.withPend p).withPend q = e.withPend q := rfl

/-- Rounds after the use of `n` bytes go on from the rounds that these took. -/
theorem rounds_advance (n k : Nat) :
    (e.advance n).rounds k =
      (e.rounds (e.roundsFor n + k)).withPend (e.streamSlice n (e.pendLenAfter n)) := by
  rw [advance, rounds_withPend, rounds_add]

/-- R200: what is left of the stream when `n` bytes of it are used. -/
theorem streamByte_advance (n j : Nat) : (e.advance n).streamByte j = e.streamByte (n + j) := by
  by_cases hj : j < e.pendLenAfter n
  · rw [streamByte_of_lt _ (by simpa using hj), advance_pend, getD_streamSlice _ _ hj]
  · have hstart : n + j - e.pend.length = j - e.pendLenAfter n + 16 * e.roundsFor n := by
      simp only [pendLenAfter, roundsFor] at hj ⊢
      omega
    have hblock : (n + j - e.pend.length) / 16 + 1 =
        e.roundsFor n + ((j - e.pendLenAfter n) / 16 + 1) := by omega
    have hindex : (n + j - e.pend.length) % 16 = (j - e.pendLenAfter n) % 16 := by omega
    have hge : e.pend.length ≤ n + j := by
      simp only [pendLenAfter] at hj
      omega
    rw [streamByte_of_ge _ (by simpa using hj), e.streamByte_of_ge hge, advance_pend,
      length_streamSlice, hblock, hindex, rounds_advance, withPend_x]

/-- R201: using `m` bytes and then `n` is using `m + n`. -/
theorem advance_advance (m n : Nat) : (e.advance m).advance n = e.advance (m + n) := by
  have hrounds : e.roundsFor (m + n) = e.roundsFor m + (e.advance m).roundsFor n := by
    simp only [roundsFor, advance_pend, length_streamSlice, pendLenAfter]
    omega
  have hlen : (e.advance m).pendLenAfter n = e.pendLenAfter (m + n) := by
    simp only [pendLenAfter, hrounds, advance_pend, length_streamSlice]
    simp only [roundsFor, advance_pend, length_streamSlice, pendLenAfter]
    omega
  have hslice : (e.advance m).streamSlice n (e.pendLenAfter (m + n)) =
      e.streamSlice (m + n) (e.pendLenAfter (m + n)) := by
    simp only [streamSlice, streamByte_advance, Nat.add_assoc]
  calc (e.advance m).advance n
      = ((e.advance m).rounds ((e.advance m).roundsFor n)).withPend
          (e.streamSlice (m + n) (e.pendLenAfter (m + n))) := by rw [advance, hlen, hslice]
    _ = e.advance (m + n) := by rw [rounds_advance, withPend_withPend, ← hrounds, ← advance]

/-- STATUS.ERR takes no part in a round. -/
theorem rounds_withErr (r : BitVec 2) (n : Nat) : (e.withErr r).rounds n = (e.rounds n).withErr r := by
  obtain ⟨hx, hc, hk⟩ :=
    rounds_congr n (e.withErr_x r) (e.withErr_c r) (e.withErr_carry r)
  apply Engine.ext <;> simp [hx, hc, hk]

theorem streamByte_withErr (r : BitVec 2) (n : Nat) : (e.withErr r).streamByte n = e.streamByte n := by
  simp only [streamByte, withErr_pend, rounds_withErr, withErr_x]

theorem withErr_withPend (r : BitVec 2) (p : List Byte) :
    (e.withErr r).withPend p = (e.withPend p).withErr r := rfl

theorem withErr_withErr (r r' : BitVec 2) : (e.withErr r).withErr r' = e.withErr r' := rfl

/-- The use of a stream carries STATUS.ERR along unread. -/
theorem advance_withErr (r : BitVec 2) (n : Nat) :
    (e.withErr r).advance n = (e.advance n).withErr r := by
  simp only [advance, roundsFor, pendLenAfter, streamSlice, streamByte_withErr, withErr_pend,
    rounds_withErr, withErr_withPend]

/-! ### The body of PROCESS -/

/-- Everything PROCESS does (R200): the engine uses as many bytes of its stream as the buffer has, each on
the byte of the buffer that has its index. -/
theorem process_advance {m : Buffer} {n : Nat} (hm : m.Wf) (hlen : m.len = n) :
    ∃ m', e.process m n = some (e.advance n, m') ∧ m'.Wf ∧ m'.len = n ∧
      ∀ j, m'.read j = (m.read j).map (· ^^^ e.streamByte j) := by
  obtain ⟨e', m', hp, hwf, hlen', hread, he'⟩ := e.process_spec hm hlen
  have hadvance : e' = e.advance n := by
    rw [he', advance]
    split
    · have hrounds : e.roundsFor n = (n - e.pend.length) / 16 := by
        rw [roundsFor]
        omega
      have hleft : e.pendLenAfter n = e.pend.length - n := by
        rw [pendLenAfter, hrounds]
        omega
      rw [hrounds, hleft, drop_pend_eq_streamSlice]
    · have hrounds : e.roundsFor n = (n - e.pend.length) / 16 + 1 := by
        rw [roundsFor]
        omega
      have hleft : e.pendLenAfter n = 16 - (n - e.pend.length) % 16 := by
        rw [pendLenAfter, hrounds]
        omega
      have hstart : e.pend.length + 16 * ((n - e.pend.length) / 16) + (n - e.pend.length) % 16 = n := by
        omega
      rw [hrounds, hleft, drop_block_eq_streamSlice, hstart]
  refine ⟨m', hadvance ▸ hp, hwf, hlen', fun j => ?_⟩
  rw [hread]
  split
  · rw [e.streamByte_of_lt (by omega)]
  · split
    · rw [e.streamByte_of_ge (by omega)]
    · rw [Buffer.read_of_ge (by omega), Option.map_none]

/-- R199: with no byte to use, the body of PROCESS does nothing, whatever form the buffer is in. -/
theorem process_zero (m : Buffer) : e.process m 0 = some (e, m) := by
  have hkeep : e.withPend (e.pend.drop 0) = e := rfl
  simp only [process, Nat.zero_min, List.take_zero, Buffer.xorBytes, hkeep,
    processBlocks_done (Nat.le_refl 0)]

end Engine

/-! ### What PROCESS answers (O17, O19 to O22) -/

/-- PROCESS on a keyed engine completes, and does what its body does. -/
theorem exec_process_advance {s : State} {e : Engine} {n : Nat} (hready : s.Ready n e)
    (hkey : e.keyed = true) (hwf : s.buf.Wf) :
    ∃ m, exec (.process n) s = .next (s.after ((e.advance n).withErr 0) m .completed) ∧ m.Wf ∧
      m.len = n ∧ ∀ j, m.read j = (s.buf.read j).map (· ^^^ e.streamByte j) := by
  obtain ⟨m, hp, hm⟩ := e.process_advance hwf hready.1
  exact ⟨m, exec_process_ok hready hkey hp, hm⟩

/-- Settles O17: the stream after `Engine.advance` is the rest of the stream before. -/
theorem processXorsThePendingStream : Obligations.ProcessXorsThePendingStream := by
  intro s e n hready hkey hwf
  obtain ⟨m, hexec, -, hlen, hread⟩ := exec_process_advance hready hkey hwf
  have hbuf : s.buf.len = n := hready.1
  refine ⟨_, m, hexec, hlen, fun j _ => hread j, fun j hj => ?_, fun j => ?_⟩
  · rw [Buffer.read_of_ge (hlen.trans_le hj), Buffer.read_of_ge (hbuf.trans_le hj)]
  · rw [Engine.streamByte_withErr, Engine.streamByte_advance]

/-- Settles O19: the rounds and the bytes left are those of `Engine.advance`. -/
theorem processRunsTheRoundsOfItsLength : Obligations.ProcessRunsTheRoundsOfItsLength := by
  intro s e n hready hkey hwf
  obtain ⟨m, hexec, -⟩ := exec_process_advance hready hkey hwf
  refine ⟨_, m, hexec, ?_⟩
  intro p r
  have hrounds : e.roundsFor n = r := by
    simp only [Engine.roundsFor, r, p]
    split <;> omega
  have hleft : e.pendLenAfter n = if n ≤ p then p - n else (16 - (n - p) % 16) % 16 := by
    simp only [Engine.pendLenAfter, Engine.roundsFor, p]
    split <;> omega
  simp [hrounds, hleft]

/-- Settles O20: the stream begins with PEND. -/
theorem processUsesPendFirst : Obligations.ProcessUsesPendFirst := by
  intro s e n hready hkey hwf
  obtain ⟨m, hexec, -, -, hread⟩ := exec_process_advance hready hkey hwf
  refine ⟨_, m, hexec, fun j hj => ?_, fun hn => ?_⟩
  · rw [hread, e.streamByte_of_lt (hj.trans_le (Nat.min_le_right _ _))]
  · rw [e.advance_of_le hn]
    rfl

/-- Settles O21: with PEND empty the stream begins with the block of the next round. -/
theorem processKeepsTheUnusedTail : Obligations.ProcessKeepsTheUnusedTail := by
  intro s e n hready hkey hwf hpend hpos hn
  obtain ⟨m, hexec, -, -, hread⟩ := exec_process_advance hready hkey hwf
  have hlen : e.pend.length = 0 := by rw [hpend, List.length_nil]
  have hone : e.rounds 1 = e.nextState := by rw [Engine.rounds_succ, Engine.rounds_zero]
  have hrounds : e.roundsFor n = 1 := by
    rw [Engine.roundsFor, hlen]
    omega
  have hleft : e.pendLenAfter n = 16 - n := by rw [Engine.pendLenAfter, hrounds, hlen]
  have hstart : 0 + 16 * 0 + n = n := by omega
  have htail : e.streamSlice n (16 - n) = (extract e.nextState.x).drop n := by
    rw [← hone, e.drop_block_eq_streamSlice 0 n, hlen, hstart]
  refine ⟨_, m, hexec, fun j hj => ?_, ?_⟩
  · have hblock : (j - 0) / 16 + 1 = 1 := by omega
    have hindex : (j - 0) % 16 = j := by omega
    rw [hread, e.streamByte_of_ge (by omega), hlen, hblock, hindex, hone]
  · simp [hrounds, hone, hleft, htail]

/-- Settles O22: the body of PROCESS returns its engine, and the end of a command sets STATUS.ERR. -/
theorem processOfNoBytesIsANoOp : Obligations.ProcessOfNoBytesIsANoOp := by
  intro s e hready hkey
  exact exec_process_ok hready hkey (e.process_zero s.buf)

/-! ### Messages (O23, O24) -/

/-- The bytes of a buffer made of bytes are those bytes. -/
theorem Buffer.toBytes_ofBytes (bs : List Byte) : (Buffer.ofBytes bs).toBytes = bs := by
  refine List.ext_getElem (by simp [Buffer.toBytes]) fun j _ h => ?_
  have hcell := lookupCell_cellsFrom 0 bs j
  rw [Nat.zero_add] at hcell
  simp [Buffer.toBytes, Buffer.ofBytes, hcell, h]

/-- A message, each byte XOR the byte of the stream that has its index. -/
def Engine.xorStream (e : Engine) (msg : List Byte) : List Byte :=
  msg.mapIdx fun j b => b ^^^ e.streamByte j

@[simp] theorem Engine.length_xorStream (e : Engine) (msg : List Byte) :
    (e.xorStream msg).length = msg.length := by
  simp [Engine.xorStream]

theorem Engine.xorStream_withErr (e : Engine) (r : BitVec 2) (msg : List Byte) :
    (e.withErr r).xorStream msg = e.xorStream msg := by
  simp only [Engine.xorStream, Engine.streamByte_withErr]

/-- R203: XOR with the same stream again gives the message back. -/
theorem Engine.xorStream_xorStream (e : Engine) (msg : List Byte) :
    e.xorStream (e.xorStream msg) = msg := by
  refine List.ext_getElem (by simp) fun j _ _ => ?_
  simp [Engine.xorStream]

/-- R201: the second part of a message meets the stream that the first part leaves. -/
theorem Engine.xorStream_append (e : Engine) (m₁ m₂ : List Byte) :
    e.xorStream (m₁ ++ m₂) = e.xorStream m₁ ++ (e.advance m₁.length).xorStream m₂ := by
  simp only [Engine.xorStream, List.mapIdx_append, Engine.streamByte_advance, Nat.add_comm]

/-- PROCESS of a message, in a state whose engine takes it, gives back the message XOR the stream. -/
theorem exec_process_ofBytes {s : State} {e : Engine} (msg : List Byte) (he : s.engine? = some e)
    (hc : s.conduct = .exclusive) (hf : e.fault = false) (hkey : e.keyed = true) :
    exec (.process msg.length) { s with buf := .ofBytes msg } =
      .next (s.after ((e.advance msg.length).withErr 0) (.ofBytes (e.xorStream msg)) .completed) := by
  obtain ⟨m, hexec, hwf, hlen, hread⟩ :=
    exec_process_advance (s := { s with buf := .ofBytes msg }) ⟨Buffer.len_ofBytes msg, he, hc, hf⟩
      hkey (Buffer.ofBytes_wf msg)
  have hm : m = .ofBytes (e.xorStream msg) := by
    refine Buffer.ext_read hwf (Buffer.ofBytes_wf _) (by simp [hlen]) fun j => ?_
    rw [hread, Buffer.read_ofBytes, Buffer.read_ofBytes, Engine.xorStream, List.getElem?_mapIdx]
  rw [hexec, hm]
  rfl

/-- Settles O23: both the bytes and the engine of the message are put together from those of its parts. -/
theorem processInPiecesIsProcessAtOnce : Obligations.ProcessInPiecesIsProcessAtOnce := by
  intro s e m₁ m₂ he hc hf hkey
  have hexec₂ := exec_process_ofBytes m₂
    (State.after_engine? he ((e.advance m₁.length).withErr 0) (.ofBytes (e.xorStream m₁)) .completed)
    hc (by simp [hf]) (by simp [hkey])
  refine ⟨_, _, _, exec_process_ofBytes m₁ he hc hf hkey, hexec₂,
    exec_process_ofBytes (m₁ ++ m₂) he hc hf hkey, ?_, ?_⟩
  · simp only [State.after_buf, Buffer.toBytes_ofBytes, Engine.xorStream_withErr,
      Engine.xorStream_append]
  · simp only [State.after_engines, State.after_target, List.set_set, Engine.advance_withErr,
      Engine.advance_advance, List.length_append, Engine.withErr_withErr]

/-- Settles O24: the same stream meets the message twice. -/
theorem processTwiceRestoresTheMessage : Obligations.ProcessTwiceRestoresTheMessage := by
  intro s e msg he hc hf hkey
  have hback := exec_process_ofBytes (e.xorStream msg) he hc hf hkey
  rw [Engine.length_xorStream, Engine.xorStream_xorStream] at hback
  exact ⟨_, _, exec_process_ofBytes msg he hc hf hkey, hback, rfl⟩

/-! ### PEND_LEN and the total (O25) -/

/-- R202: the bytes that are left keep step with the total. -/
theorem Engine.length_pend_advance {e : Engine} {total : Nat} (h : e.pend.length = pendLenOf total)
    (n : Nat) : (e.advance n).pend.length = pendLenOf (total + n) := by
  simp only [Engine.advance_pend, Engine.length_streamSlice, Engine.pendLenAfter, Engine.roundsFor, h,
    pendLenOf]
  omega

/-- R202: whatever a command does, PEND_LEN stays that of the total. -/
theorem Effect.pendLen {s : State} {i : Instr} {e e' : Engine} {m : Buffer} {c : CommandEnd}
    {total : Nat} (heff : Effect s i e e' m c) (hwf : s.buf.Wf)
    (h : e.pend.length = pendLenOf total) :
    e'.pend.length = pendLenOf (totalAfter s.params total i c) := by
  cases heff with
  | concurrent | faulted | notKeyed | keySize | ivSize => exact h
  | keyed k hr hi =>
    subst hi
    rw [Engine.withErr_pend, Engine.keySchedule_pend, totalAfter]
    rfl
  | ivDerived d hr hi =>
    subst hi
    rw [Engine.withErr_pend, Engine.ivDerive_pend]
    exact h
  | processed n f m hr hi hkey hp =>
    subst hi
    obtain ⟨b, hp', -⟩ := e.process_advance hwf hr.1
    obtain ⟨rfl, rfl⟩ := Prod.mk.inj (Option.some.inj (hp.symm.trans hp'))
    rw [Engine.withErr_pend]
    exact Engine.length_pend_advance h n
  | rewound hr hi =>
    subst hi
    rw [Engine.withErr_pend, Engine.rewind_pend, totalAfter]
    split
    · rfl
    · exact h
  | purged hr hi =>
    subst hi
    exact h

/-- Settles O25: a command that answers leaves one of its effects. -/
theorem pendLengthFollowsTheTotal : Obligations.PendLengthFollowsTheTotal := by
  intro s t i e total he hwf hpend hexec
  rcases exec_cases i s with ⟨-, hx⟩ | ⟨-, -, hx⟩ | ⟨f, f', m, c, -, hf, hx, heff⟩
  · cases hexec.symm.trans hx
  · cases hexec.symm.trans hx
  · cases hexec.symm.trans hx
    cases he.symm.trans hf
    exact ⟨f', c, State.after_engine? he f' m c, State.after_ended s f' m c, heff.pendLen hwf hpend⟩

end Sys2Proof.Machine

/-! ## Proofs: REWIND and PURGE (O26 to O30) -/

namespace Sys2Proof.Machine

/-! ### What REWIND leaves -/

section
variable (e : Engine) (p : Params)

@[simp] theorem Engine.rewind_x : (e.rewind p).x = e.mx := (rfl)
@[simp] theorem Engine.rewind_c : (e.rewind p).c = e.mc := (rfl)
@[simp] theorem Engine.rewind_carry : (e.rewind p).carry = e.mcarry := (rfl)

/-- What REWIND leaves, the next REWIND leaves again: it changes neither the snapshot it restores nor an
empty PEND (R228 (b)). -/
theorem Engine.rewind_rewind (r : BitVec 2) :
    (((e.rewind p).withErr r).rewind p).withErr r = (e.rewind p).withErr r := by
  apply Engine.ext <;> simp +contextual

/-- REWIND changes no snapshot (R221). -/
theorem Engine.sameSnapshot_rewind (r : BitVec 2) : e.SameSnapshot ((e.rewind p).withErr r) := by
  constructor <;> simp

end

/-- REWIND leaves PEND empty when it was, or when the parameter says so (R222). -/
theorem Engine.rewind_pend_eq_nil {e : Engine} {p : Params}
    (h : e.pend = [] ∨ p.rewindClearsPending = true) : (e.rewind p).pend = [] := by
  rw [Engine.rewind_pend]
  split
  · rfl
  · next hclears => exact h.resolve_right hclears

/-- A command that leaves the engine, the buffer and the end that were there leaves the state. -/
theorem State.after_self {s : State} {e : Engine} {c : CommandEnd} (he : s.engine? = some e)
    (hc : s.ended = some c) : s.after e s.buf c = s := by
  apply State.ext <;> simp [State.set_engine_self he, hc]

/-- The next command to an engine that a command left without a fault is ready, with any buffer of its
length. -/
theorem State.ready_after {s : State} {e f : Engine} {b : Buffer} {len : Nat}
    (he : s.engine? = some e) (hc : s.conduct = .exclusive) (hf : f.fault = false)
    (hlen : b.len = len) (m : Buffer) (c : CommandEnd) :
    State.Ready { s.after f m c with buf := b } len f :=
  ⟨hlen, State.after_engine? he f m c, hc, hf⟩

/-- Settles O26: the plain path of REWIND, and its key check. -/
theorem rewindRestoresTheSnapshot : Obligations.RewindRestoresTheSnapshot := fun _ _ hready =>
  ⟨exec_rewind_ok hready, exec_notKeyed hready rfl⟩

/-- REWIND changes nothing where the last command completed and left the engine as REWIND leaves it. -/
theorem exec_rewind_of_rewound {t : State} {f : Engine} (hready : t.Ready 0 f) (hkey : f.keyed = true)
    (hrewound : (f.rewind t.params).withErr 0 = f) (hended : t.ended = some .completed) :
    exec .rewind t = .next t := by
  have ⟨_, hengine, _, _⟩ := hready
  rw [exec_rewind_ok hready hkey, hrewound, State.after_self hengine hended]

/-- Settles O27: the second REWIND leaves the engine of the first, and so its whole state. -/
theorem rewindIsIdempotent : Obligations.RewindIsIdempotent := by
  intro s e hready hkey
  have ⟨hlen, he, hc, hf⟩ := hready
  have hready' : (s.after ((e.rewind s.params).withErr 0) s.buf .completed).Ready 0
      ((e.rewind s.params).withErr 0) :=
    State.ready_after he hc (by simp [hf]) hlen s.buf .completed
  exact ⟨_, exec_rewind_ok hready hkey,
    exec_rewind_of_rewound hready' (by simp [hkey]) (e.rewind_rewind s.params 0) rfl⟩

/-! ### REWIND and IVSETUP (O28) -/

/-- The stream of an engine depends on PEND, X, C and CARRY only (R200). -/
theorem Engine.streamByte_congr {e e' : Engine} (hpend : e.pend = e'.pend) (hx : e.x = e'.x)
    (hc : e.c = e'.c) (hk : e.carry = e'.carry) (n : Nat) : e.streamByte n = e'.streamByte n := by
  simp only [Engine.streamByte, hpend, (Engine.rounds_congr _ hx hc hk).1]

/-- IVSETUP right after a command that left a keyed engine without a fault. -/
theorem exec_ivsetup_after {s : State} {e f : Engine} {iv : Buffer} {d : Words4}
    (he : s.engine? = some e) (hc : s.conduct = .exclusive) (hf : f.fault = false)
    (hkey : f.keyed = true) (hlen : iv.len = 8) (hd : iv.ivWords = some d) (m : Buffer)
    (c : CommandEnd) :
    exec (.ivsetup 8) { s.after f m c with buf := iv } =
      .next ((s.after f m c).after ((f.ivDerive d).withErr 0) iv .completed) :=
  exec_ivsetup_ok (State.ready_after he hc hf hlen m c) hkey hd

/-- Settles O28: REWIND keeps the snapshot, and IVSETUP derives from the snapshot and the IV only. -/
theorem rewindThenIvsetupIsAFreshStart : Obligations.RewindThenIvsetupIsAFreshStart := by
  intro s u e g iv hready hg hconduct hfault hkey hlen
  obtain ⟨k, hk⟩ := Buffer.keyWords_isSome (m := s.buf) hready.1.ge
  obtain ⟨d, hd⟩ := Buffer.ivWords_isSome (m := iv) hlen.ge
  have hsetup := exec_keysetup_ok hready hk
  have hrewind := exec_rewind_ok (s := { u with buf := .empty }) ⟨rfl, hg, hconduct, hfault⟩ hkey
  obtain ⟨-, he, hc, hf⟩ := hready
  have hfresh := exec_ivsetup_after (f := (e.keySchedule k).withErr 0) he hc (by simp [hf]) (by simp)
    hlen hd s.buf .completed
  have hagain := exec_ivsetup_after (f := (g.rewind u.params).withErr 0) hg hconduct
    (by simp [hfault]) (by simp [hkey]) hlen hd .empty .completed
  refine ⟨_, _, _, _, hsetup, hfresh, hrewind, hagain, fun hmx hmc hmcarry => ?_⟩
  have hsame : ((e.keySchedule k).withErr 0).SameSnapshot ((g.rewind u.params).withErr 0) :=
    Engine.SameSnapshot.trans ⟨hmx, hmc, hmcarry⟩ (g.sameSnapshot_rewind u.params 0)
  obtain ⟨hx, hc', hcarry⟩ := Engine.ivDerive_congr hsame d
  simp only [Engine.withErr_x, Engine.withErr_c, Engine.withErr_carry, Engine.streamByte_withErr]
  refine ⟨hx, hc', hcarry, fun hpend => Engine.streamByte_congr ?_ hx hc' hcarry⟩
  rw [Engine.ivDerive_pend, Engine.ivDerive_pend, Engine.withErr_pend, Engine.withErr_pend,
    Engine.rewind_pend_eq_nil hpend, Engine.keySchedule_pend]

/-! ### PURGE (O29, O30) -/

/-- Settles O29: PURGE has no KEYED check, and on a faulted engine the gate raises Faulted, where FAULT
is set already. -/
theorem purgeZeroesTheState : Obligations.PurgeZeroesTheState := by
  refine fun s e => ⟨exec_purge_ok, fun hlen he hc hf => ?_⟩
  have hfaulted : Effect s .purge e e.withFault s.buf (.fault .faulted) := .faulted hc hf
  rw [hfaulted.exec_eq hlen he, Engine.withFault_of_fault hf]

/-- Settles O30: PURGE leaves KEYED clear and FAULT as it was, so that only the key check can fail. -/
theorem purgedEngineNeedsANewKey : Obligations.PurgedEngineNeedsANewKey := by
  intro s e hready
  have hpurge := exec_purge_ok hready
  obtain ⟨-, he, hc, hf⟩ := hready
  have hengine := State.after_engine? he (e.purge.withErr 0) s.buf .completed
  exact ⟨_, _, hpurge, hengine, fun i m hneed hlen =>
    exec_notKeyed (State.ready_after he hc (by simp [hf]) hlen s.buf .completed) hneed (by simp)⟩

end Sys2Proof.Machine

/-! ## Proofs: how a command ends, and what that leaves alone (O32, O35 to O38, O50) -/

namespace Sys2Proof.Machine

/-- Settles O32: the gate raises ConcurrentUse before it looks at the engine, and every word begins with
the gate. -/
theorem concurrentUseFaults : Obligations.ConcurrentUseFaults := by
  rintro s t rest e ⟨hin, hlen, he⟩ hc
  obtain ⟨k, hk⟩ := runCommand_eq_gate (s.latch t rest)
  have hgate : (s.latch t rest).gate (lenField t.cmd) k = (s.latch t rest).raise e .concurrentUse :=
    State.gate_concurrentUse hlen he hc
  calc step s = (s.latch t rest).runCommand := step_issue hin
    _ = (s.latch t rest).raise e .concurrentUse := hk.trans hgate
    _ = .next ((s.latch t rest).after { e with fault := true } t.buf (.fault .concurrentUse)) :=
        State.raise_eq _ e _

/-! ### What each end says of the command and the engine it leaves -/

/-- STATUS.ERR after a command that ended as `c` on an engine whose STATUS.ERR was `old` (R242, R246):
OK, the code of the error, or after a fault the old value. -/
def CommandEnd.errAfter (old : BitVec 2) : CommandEnd → BitVec 2
  | .completed => 0
  | .error k => k.code
  | .fault _ => old

section
variable {s : State} {i : Instr} {e e' : Engine} {m : Buffer} {c : CommandEnd}

theorem Effect.err (h : Effect s i e e' m c) : e'.err = c.errAfter e.err := by
  cases h with
  | concurrent | faulted | notKeyed => exact e.withFault_err
  | keySize | ivSize | keyed | ivDerived | processed | rewound | purged => exact Engine.withErr_err _ _

/-- An error changes STATUS.ERR only (R242). -/
theorem Effect.of_error {k : ErrorKind} (h : Effect s i e e' m (.error k)) :
    e' = e.withErr k.code ∧ m = s.buf := by
  cases h with
  | keySize | ivSize => exact ⟨rfl, rfl⟩

/-- A fault changes FAULT only (R246). -/
theorem Effect.of_fault {r : FaultReason} (h : Effect s i e e' m (.fault r)) :
    e' = e.withFault ∧ m = s.buf := by
  cases h with
  | concurrent | faulted | notKeyed => exact ⟨rfl, rfl⟩

/-- Only a command that needs a key raises NotKeyed (R247). -/
theorem Effect.needsKey_of_notKeyed (h : Effect s i e e' m (.fault .notKeyed)) : i.needsKey = true := by
  cases h with
  | notKeyed _ hneed => exact hneed

/-- A command gives back a buffer of the length it got (R62). -/
theorem Effect.bufLen (h : Effect s i e e' m c) : m.len = s.buf.len := by
  cases h with
  | concurrent | faulted | notKeyed | keySize | ivSize | keyed | ivDerived | rewound | purged => rfl
  | processed n f m hr hi hkey hp =>
    subst hi
    obtain ⟨f', b, hp', hb, -⟩ := e.process_frame hr.1
    obtain ⟨rfl, rfl⟩ := Prod.mk.inj (Option.some.inj (hp.symm.trans hp'))
    exact hb.trans hr.1.symm

/-- A command ends in one way only. -/
theorem Effect.end_unique {f : Engine} {b : Buffer} {d : CommandEnd} (h : Effect s i e e' m c)
    (h' : Effect s i e f b d) (hlen : s.buf.len = i.len) (he : s.engine? = some e) : c = d := by
  have hnext := (h.exec_eq hlen he).symm.trans (h'.exec_eq hlen he)
  injection hnext with hafter
  exact Option.some.inj (congrArg State.ended hafter)

/-- InvalidKeySize is the error of KEYSETUP with a length other than 16, and of nothing else (R241). -/
theorem Effect.keySize_iff (h : Effect s i e e' m c) (hready : s.Ready i.len e) :
    c = .error .invalidKeySize ↔ ∃ n, i = .keysetup n ∧ n ≠ 16 := by
  constructor
  · rintro rfl
    cases h with
    | keySize n _ hi hn => exact ⟨n, hi, hn⟩
  · rintro ⟨n, hi, hn⟩
    exact h.end_unique (.keySize n hready hi hn) hready.1 hready.2.1

/-- InvalidIVSize is the error of IVSETUP on a keyed engine with a length other than 8, and of nothing
else (R243). -/
theorem Effect.ivSize_iff (h : Effect s i e e' m c) (hready : s.Ready i.len e) :
    c = .error .invalidIVSize ↔ ∃ n, i = .ivsetup n ∧ n ≠ 8 ∧ e.keyed = true := by
  constructor
  · rintro rfl
    cases h with
    | ivSize n _ hi hkey hn => exact ⟨n, hi, hn, hkey⟩
  · rintro ⟨n, hi, hn, hkey⟩
    exact h.end_unique (.ivSize n hready hi hkey hn) hready.1 hready.2.1

end

/-- Settles O35: the key check comes first, and a command that has none cannot end in NotKeyed. -/
theorem keylessUseFaults : Obligations.KeylessUseFaults := by
  intro s i e hready hkey
  refine ⟨fun hneed => exec_notKeyed hready hneed hkey, fun hfree => ?_⟩
  obtain ⟨e', m, c, hexec, heff⟩ := exec_ready hready
  refine ⟨_, hexec, fun hended => ?_⟩
  obtain rfl : c = .fault .notKeyed := Option.some.inj hended
  exact Bool.false_ne_true (hfree.symm.trans heff.needsKey_of_notKeyed)

/-- Settles O36: a ready command answers with an effect, whose end says which error it reports and what
STATUS.ERR holds. -/
theorem errReportsHowTheCommandEnded : Obligations.ErrReportsHowTheCommandEnded := by
  intro s i e hready
  obtain ⟨e', m, c, hexec, heff⟩ := exec_ready hready
  have herr : e'.err = c.errAfter e.err := heff.err
  refine ⟨_, e', c, hexec, State.after_engine? hready.2.1 e' m c, State.after_ended s e' m c,
    heff.keySize_iff hready, heff.ivSize_iff hready, fun hc => ?_, fun hc => ?_, fun hc => ?_,
    fun r hc => ?_⟩
  all_goals
    rw [hc] at herr
    exact herr

/-- Settles O37: the effects that end in an error or a fault write one register of the engine. -/
theorem errorsAndFaultsChangeNothingElse : Obligations.ErrorsAndFaultsChangeNothingElse := by
  intro s t i e he hexec
  rcases exec_cases i s with ⟨-, hx⟩ | ⟨-, -, hx⟩ | ⟨f, e', m, c, -, hf, hx, heff⟩
  · cases hexec.symm.trans hx
  · cases hexec.symm.trans hx
  · cases hexec.symm.trans hx
    cases he.symm.trans hf
    refine ⟨fun k hended => ?_, fun r hended => ?_⟩
    · obtain rfl : c = .error k := Option.some.inj hended
      obtain ⟨rfl, rfl⟩ := heff.of_error
      cases k with
      | invalidKeySize | invalidIVSize => rfl
    · obtain rfl : c = .fault r := Option.some.inj hended
      obtain ⟨rfl, rfl⟩ := heff.of_fault
      rfl

/-- A transaction that is answered leaves its state `after` some engine, end and buffer, and the buffer
has the length it had. -/
theorem after_of_step_issue {s t : State} {u : Transaction} {rest : List HostEvent}
    (hin : s.inbox = .issue u :: rest) (h : step s = .next t) :
    ∃ e m c, t = (s.latch u rest).after e m c ∧ m.len = u.buf.len := by
  cases stepped_of_issue hin h with
  | idle hin' => cases hin.symm.trans hin'
  | powerOn rest' hin' => cases hin.symm.trans hin'
  | ran hin' _ _ heff =>
    cases hin.symm.trans hin'
    exact ⟨_, _, _, rfl, heff.bufLen⟩
  | illegal r hin' =>
    cases hin.symm.trans hin'
    exact ⟨_, _, _, rfl, rfl⟩

/-- Settles O38: past the two refusals of the gate every word answers, and PROCESS, the one command that
writes the buffer, keeps its length. -/
theorem everyIssuedCommandAnswers : Obligations.EveryIssuedCommandAnswers := by
  rintro s t rest e ⟨hin, hlen, he⟩
  obtain ⟨_, _, _, hanswers⟩ := exists_answers (s := s.latch t rest) hlen he
  have hstep := (step_issue hin).trans (hanswers _ (.refl _))
  obtain ⟨e', m, c, hafter, hm⟩ := after_of_step_issue hin hstep
  exact ⟨e', m, c, hafter ▸ hstep, hm⟩

/-- Settles O50: a transaction writes no engine but its own. -/
theorem otherEnginesAreUntouched : Obligations.OtherEnginesAreUntouched := by
  intro s t u rest hin hstep
  have hlength := length_engines_of_step hstep
  obtain ⟨e, m, c, rfl, -⟩ := after_of_step_issue hin hstep
  exact ⟨hlength, State.after_params _ e m c, State.after_inbox _ e m c,
    fun _ hj => State.after_other (s.latch u rest) e m c hj⟩

end Sys2Proof.Machine

/-! ## Proofs: nothing without the host, and the boot order (O48, O53) -/

namespace Sys2Proof.Machine

/-- Settles O48. -/
theorem nothingRunsWithoutTheHost : Obligations.NothingRunsWithoutTheHost := fun _ hin => step_idle hin

/-! ### Commands that leave a keyed engine without FAULT -/

/-- The commands of R273 that engine `e` can be given: KEYSETUP of a 16-byte key, and once `e` is keyed
every command that needs a key. -/
def Engine.SafeFor (e : Engine) (i : Instr) : Prop :=
  i = .keysetup 16 ∨ (i.needsKey = true ∧ e.keyed = true)

/-- Such a command leaves its engine keyed, and raises no fault once it is past the gate. -/
theorem Effect.keyed_and_unfaulted {s : State} {i : Instr} {e e' : Engine} {m : Buffer} {c : CommandEnd}
    (h : Effect s i e e' m c) (hready : s.Ready i.len e) (hsafe : e.SafeFor i) :
    e'.keyed = true ∧ e'.fault = false := by
  obtain ⟨-, -, hconduct, hfault⟩ := hready
  cases h with
  | concurrent hc => exact absurd hconduct hc
  | faulted _ hf => exact absurd hfault (by simp [hf])
  | notKeyed _ hneed hkey =>
    rcases hsafe with rfl | ⟨-, hkey'⟩
    · cases hneed
    · exact absurd hkey (by simp [hkey'])
  | keySize n _ hi hn =>
    subst hi
    rcases hsafe with hi | ⟨hneed, -⟩
    · cases hi
      exact absurd rfl hn
    · cases hneed
  | purged _ hi =>
    subst hi
    rcases hsafe with hi | ⟨hneed, -⟩
    · cases hi
    · cases hneed
  | keyed k => simp [hfault]
  | ivSize _ _ _ hkey | ivDerived _ _ _ hkey | rewound _ _ hkey => simp [hkey, hfault]
  | processed n f m hr hi hkey hp =>
    subst hi
    have hkeeps := Engine.process_keepsSetup hr.1 hp
    simp [hkeeps.keyed, hkeeps.fault, hkey, hfault]

/-! ### Running a program line by line -/

/-- No engine is faulted, and engine `k` is keyed: what every line after KEYSETUP finds and keeps. -/
def State.KeyedUnfaulted (s : State) (k : Nat) : Prop :=
  s.MayEnd ∧ ∃ e, s.engines[k]? = some e ∧ e.keyed = true

/-- Where no engine had faulted, a command that leaves its own keyed and without FAULT leaves none
faulted. -/
theorem State.MayEnd.keyedUnfaulted_after {s : State} {e e' : Engine} (hs : s.MayEnd)
    (he : s.engine? = some e) (hkey : e'.keyed = true) (hfault : e'.fault = false)
    (m : Buffer) (c : CommandEnd) :
    (s.after e' m c).KeyedUnfaulted s.target := by
  refine ⟨fun f hf => ?_, e', State.after_engine? he e' m c, hkey⟩
  rcases List.mem_or_eq_of_mem_set hf with hf | rfl
  · exact hs f hf
  · exact hfault

/-- An assembled line meets the gate: its buffer has the length its word says (R66, R89). -/
theorem AsmLine.ready_latch {s : State} {k : Nat} {l : AsmLine} {e : Engine} (hl : l.Wf)
    (he : s.engines[k]? = some e) (hf : e.fault = false) (rest : List HostEvent) :
    (s.latch (l.assemble k) rest).Ready l.instr.len e :=
  ⟨hl.2, he, rfl, hf⟩

/-- The host's next line, if safe for its engine, is answered, and leaves that engine keyed and none
faulted. -/
theorem step_safe_line {s : State} {k : Nat} {l : AsmLine} {rest : List HostEvent} {e : Engine}
    (hin : s.inbox = .issue (l.assemble k) :: rest) (hs : s.MayEnd) (he : s.engines[k]? = some e)
    (hl : l.Wf) (hsafe : e.SafeFor l.instr) :
    ∃ t, step s = .next t ∧ t.inbox = rest ∧ t.KeyedUnfaulted k := by
  have hdecode : decode (l.assemble k).cmd = .ok l.instr := decodeInvertsEncode l.instr hl.1
  have hready : (s.latch (l.assemble k) rest).Ready l.instr.len e :=
    AsmLine.ready_latch hl he (hs e (List.mem_of_getElem? he)) rest
  obtain ⟨e', m, c, hexec, heff⟩ := exec_ready hready
  obtain ⟨hkey, hfault⟩ := heff.keyed_and_unfaulted hready hsafe
  have hstep := ((stepRunsTheDecodedCommand s _ rest hin).1 _ hdecode).trans hexec
  exact ⟨_, hstep, rfl,
    State.MayEnd.keyedUnfaulted_after (s := s.latch (l.assemble k) rest) hs he hkey hfault m c⟩

theorem State.runsSafely_succ {s t : State} {n : Nat} (h : step s = .next t) (ht : t.RunsSafely n) :
    s.RunsSafely (n + 1) := by
  obtain ⟨z, hrun, hz⟩ := ht
  exact ⟨z, (run_succ h n).trans hrun, hz⟩

/-- Lines that need a key run safely on a keyed engine: each keeps what the next one finds. -/
theorem State.KeyedUnfaulted.runsSafely {s : State} {k : Nat} {ls : List AsmLine}
    (hs : s.KeyedUnfaulted k) (hin : s.inbox = ls.map fun l => .issue (l.assemble k))
    (hls : ∀ l ∈ ls, l.Wf ∧ l.instr.needsKey = true) : s.RunsSafely ls.length := by
  induction ls generalizing s with
  | nil => exact ⟨s, run_zero s, hs.1⟩
  | cons l ls ih =>
    obtain ⟨hend, e, he, hkey⟩ := hs
    obtain ⟨hl, hneed⟩ := hls l List.mem_cons_self
    obtain ⟨t, hstep, hrest, ht⟩ := step_safe_line hin hend he hl (.inr ⟨hneed, hkey⟩)
    exact State.runsSafely_succ hstep (ih ht hrest fun l' hl' => hls l' (List.mem_cons_of_mem l hl'))

/-- Settles O53: KEYSETUP leaves a keyed engine, and every line after it keeps that. -/
theorem bootOrderRunsSafely : Obligations.BootOrderRunsSafely := by
  intro s k key ls hend hk hkey hls
  have hwf : AsmLine.Wf ⟨.keysetup 16, key⟩ := ⟨(by decide : 16 < lenBound), hkey⟩
  obtain ⟨t, hstep, hrest, ht⟩ :=
    step_safe_line (s := s.withProgram k (⟨.keysetup 16, key⟩ :: ls)) rfl hend
      (List.getElem?_eq_getElem hk) hwf (.inl rfl)
  exact State.runsSafely_succ hstep (ht.runsSafely hrest hls)

end Sys2Proof.Machine
